-- ==== Sys2Proof/Word.lean ====
section
/-! DEFINITION. The word types of the engine (00_scope.md R8, R9: everything is unsigned). -/

namespace Sys2Proof

/-- 8 bits: a general register, a timer, a memory cell (R8). -/
abbrev Byte := BitVec 8

/-- 16 bits: an instruction word, `I`, `pc`, a call-stack entry (R8). -/
abbrev Word := BitVec 16

/-- 12 bits: the address operand `NNN` (30_encoding.md R54). -/
abbrev Addr := BitVec 12

/-- A register number `X` or `Y`, 0 to 15 (10_state.md R14). -/
abbrev RegNum := Fin 16

/-- `VF`, the flag register `V[15]` (10_state.md R15). -/
abbrev vf : RegNum := 15

end Sys2Proof
end

