-- ==== Sys2Proof/Config.lean ====
section
/-! DEFINITION. The fixed sizes of 00_scope.md R6, and the one free value: the byte the random source answers. -/

namespace Sys2Proof

/-- `MEM_SIZE`: bytes of memory, addresses 0x000 to 0xFFF (R6). -/
@[simp] abbrev Config.memSize : Nat := 4096

/-- `FONT_BASE`: address of glyph 0 (R6). -/
@[simp] abbrev Config.fontBase : Nat := 0x000

/-- `FONT_STRIDE`: bytes per glyph (R6). -/
@[simp] abbrev Config.fontStride : Nat := 5

/-- `PROG_BASE`: load address and reset `pc` (R6). -/
@[simp] abbrev Config.progBase : Nat := 0x200

/-- `PROG_MAX`: greatest program length in bytes (R6). -/
@[simp] abbrev Config.progMax : Nat := 3584

/-- `Rand8()`: the byte the random source answers to its `n`-th request (42_display_keypad.md R91, 60_exceptions.md R137).
It has no body, so nothing is known of any of its values.
DESIGN CHOICE (log 1): the draws are numbered by the counter `State.draws`. -/
opaque Config.randByte : Nat → Byte

end Sys2Proof
end

