-- ==== Sys2Proof/Machine/Memory.lean ====
section
/-! DEFINITION. The memory: 4096 one-byte cells (20_memory.md R33, R34), held as the list of cells that differ from
their contents after Construct, in one canonical form. -/

namespace Sys2Proof.Machine

/-- The glyphs of the hexadecimal digits 0 to F, five bytes each, top row first (10_state.md R30, R31).
UNVERIFIED (log 9): the bytes are the spec's own choice. -/
def glyphs : List (List Byte) :=
  [[0xF0, 0x90, 0x90, 0x90, 0xF0], [0x20, 0x60, 0x20, 0x20, 0x70],
   [0xF0, 0x10, 0xF0, 0x80, 0xF0], [0xF0, 0x10, 0xF0, 0x10, 0xF0]] ++
  [[0x90, 0x90, 0xF0, 0x10, 0x10], [0xF0, 0x80, 0xF0, 0x10, 0xF0],
   [0xF0, 0x80, 0xF0, 0x90, 0xF0], [0xF0, 0x10, 0x20, 0x40, 0x40]] ++
  [[0xF0, 0x90, 0xF0, 0x90, 0xF0], [0xF0, 0x90, 0xF0, 0x10, 0xF0],
   [0xF0, 0x90, 0xF0, 0x90, 0x90], [0xE0, 0x90, 0xE0, 0x90, 0xE0]] ++
  [[0xF0, 0x80, 0x80, 0x80, 0xF0], [0xE0, 0x90, 0x90, 0x90, 0xE0],
   [0xF0, 0x80, 0xF0, 0x80, 0xF0], [0xF0, 0x80, 0xF0, 0x80, 0x80]]

/-- The 80 font bytes, from `FONT_BASE` = 0x000 up (R30). -/
def fontBytes : List Byte := glyphs.flatten

/-- What a cell holds after Construct: the font at 0x000 to 0x04F and 0 elsewhere (10_state.md R29).
It is what an address that the memory does not list reads as (log 7). -/
def resetByte (a : Nat) : Byte := fontBytes.getD a 0

/-- The cells that differ from `resetByte`, addresses strictly rising. -/
abbrev Memory := List Host.Cell

/-- The byte in the cell at `a`. -/
def Memory.read : Memory → Nat → Byte
  | [], a => resetByte a
  | (k, b) :: rest, a => if k = a then b else Memory.read rest a

/-- Lists the cell `(a, b)` before the first listed cell of a higher address. -/
def Memory.putCell : Memory → Nat → Byte → Memory
  | [], a, b => [(a, b)]
  | (k, c) :: rest, a, b => if a < k then (a, b) :: (k, c) :: rest else (k, c) :: Memory.putCell rest a b

/-- Puts `b` in the cell at `a` and changes no other cell (20_memory.md R41).
The reset byte of a cell is stored by listing no cell. -/
def Memory.write (m : Memory) (a : Nat) (b : Byte) : Memory :=
  let others : Memory := m.filter fun cell => cell.1 != a
  if b = resetByte a then others else Memory.putCell others a b

/-- Writes the bytes in ascending address order, the first at `base` (20_memory.md R37). -/
def Memory.storeBytes : Memory → Nat → List Byte → Memory
  | m, _, [] => m
  | m, base, b :: bs => Memory.storeBytes (m.write base b) (base + 1) bs

/-- The canonical form from address `lo` on: addresses strictly rising and inside the memory, and no listed cell that
holds its reset byte. -/
def Memory.wfFrom : Nat → Memory → Bool
  | _, [] => true
  | lo, (k, b) :: rest =>
    decide (lo ≤ k) && decide (k < Config.memSize) && decide (b ≠ resetByte k) && Memory.wfFrom (k + 1) rest

/-- The memory is in its canonical form. -/
def Memory.wf (m : Memory) : Bool := Memory.wfFrom 0 m

end Sys2Proof.Machine
end

