-- ==== Sys2Proof/Machine/State.lean ====
section
/-! DEFINITION. The whole state of the engine (10_state.md R13), the reasons a step can stop, and the state after
Construct (R29). -/

namespace Sys2Proof.Machine

/-- The display buffer, `display[y][x]`: 32 rows of 64 one-bit pixels, origin at the top left (R24). -/
abbrev Display := Vector (Vector Bool 64) 32

/-- The State Store (R13), and the counter of random draws, which is the model's own. -/
structure State where
  /-- `V[0..15]`; `V[15]` is the flag register VF (R14, R15). -/
  v : Vector Byte 16
  /-- The index register `I` (R19). -/
  i : Word
  /-- The program counter, the address of the next instruction (R16). -/
  pc : Word
  /-- The call stack, sixteen return addresses (R20). -/
  stack : Vector Word 16
  /-- The number of live stack entries, 0 to 16 (R21). -/
  sp : Fin 17
  /-- The delay timer `DT` (R22). -/
  dt : Byte
  /-- The sound timer `ST` (R23). -/
  st : Byte
  /-- The display buffer (R24). -/
  display : Display
  /-- The sixteen keypad flags (R25). -/
  key : Vector Bool 16
  /-- The blocking flag: set is run state WaitingForKey, clear is Running (R26, R133). -/
  blocking : Bool
  /-- The memory (R27). -/
  mem : Memory
  /-- The MODEL's own field: how many bytes the random source has answered (R28(c), R91; log 1). -/
  draws : Nat
  deriving DecidableEq, Repr

/-- The five faults, with what they report (60_exceptions.md R121). All are safe: the spec ends the operation so. -/
inductive Fault where
  /-- Raised by Step when the fetched word `w` at `pc` is illegal (R122). Safe. -/
  | unknownOpcode (w pc : Word)
  /-- Raised by RET with an empty stack (R123). Safe. -/
  | stackUnderflow (pc : Word)
  /-- Raised by CALL with a full stack (R124). Safe. -/
  | stackOverflow (pc : Word)
  /-- Raised by the fetch, DRW, BCD, STM, LDM, Load program and the re-fetch of Complete wait when the range of `len`
  bytes from `first` reaches 4096 (R125). Safe. -/
  | memoryAccessOutOfRange (first len : Nat)
  /-- Raised by SKP, SKNP, Keypad edge and Complete wait when the key index `k` exceeds 15 (R126). Safe. -/
  | invalidKeyIndex (k : Nat)
  deriving DecidableEq, Repr

/-- Why an instruction has no meaning. No meaning of this model answers so. -/
inductive Refusal where
  /-- Raised only by an arm of exec whose instruction has no meaning yet; no arm is left so. Safe. -/
  | notModelled (mnemonic : String)
  deriving DecidableEq, Repr

/-- How one instruction ends. -/
abbrev Result := Host.Outcome State Fault Refusal

/-- The state after Construct (R29, R107, R141). UNVERIFIED (log 8): the zeros are decision D1 of the spec. -/
def State.reset : State where
  v := Vector.replicate 16 0
  i := 0
  pc := 0x200
  stack := Vector.replicate 16 0
  sp := 0
  dt := 0
  st := 0
  display := Vector.replicate 32 (Vector.replicate 64 false)
  key := Vector.replicate 16 false
  blocking := false
  mem := []
  draws := 0

end Sys2Proof.Machine
end

