-- ==== Sys2Proof/Machine/Display.lean ====
section
/-! DEFINITION. The display buffer and the drawing of a sprite (10_state.md R24, 42_display_keypad.md R92, R93).
UNVERIFIED (log 12): the placement rule and the bit order are decisions D8 and D9 of the spec. -/

namespace Sys2Proof.Machine

/-- `display[y][x]`. -/
def pixel (d : Display) (x : Fin 64) (y : Fin 32) : Bool := d[y][x]

/-- `display[y][x] <- b`. -/
def setPixel (d : Display) (x : Fin 64) (y : Fin 32) (b : Bool) : Display := d.set y (d[y].set x b)

/-- All 2048 pixels 0 (R66). -/
def clearDisplay : Display := Vector.replicate 32 (Vector.replicate 64 false)

/-- The sprite wraps iff its anchor lies outside the grid on either axis (R92, R93). -/
def spriteWraps (x0 y0 : Nat) : Bool := decide (x0 ≥ 64) || decide (y0 ≥ 32)

/-- `Place(wrap, x0, y0, c, r)` (R93): where the pixel of column `c` and row `r` falls, none if it is clipped. -/
def place (wrap : Bool) (x0 y0 c r : Nat) : Option (Fin 64 × Fin 32) :=
  if wrap then
    some (⟨(x0 + c) % 64, Nat.mod_lt _ (by decide)⟩, ⟨(y0 + r) % 32, Nat.mod_lt _ (by decide)⟩)
  else if h : x0 + c < 64 ∧ y0 + r < 32 then
    some (⟨x0 + c, h.1⟩, ⟨y0 + r, h.2⟩)
  else
    none

/-- The sprite bit of column `c`: bit 7 is the leftmost pixel (R93). -/
def spriteBit (row : Byte) (c : Nat) : Bool := row.getLsbD (7 - c)

/-- A display with the collision seen so far. -/
structure Drawing where
  display : Display
  collision : Bool
  deriving DecidableEq, Repr

/-- XORs one sprite bit into one pixel; a pixel that goes from 1 to 0 is a collision (R92). -/
def drawPixel (wrap : Bool) (x0 y0 c r : Nat) (bit : Bool) (d : Drawing) : Drawing :=
  match place wrap x0 y0 c r with
  | none => d
  | some (px, py) =>
    { display := setPixel d.display px py (xor (pixel d.display px py) bit)
      collision := d.collision || (pixel d.display px py && bit) }

/-- Draws the eight columns of row `r`, left to right (R92). -/
def drawRow (wrap : Bool) (x0 y0 r : Nat) (row : Byte) (d : Drawing) : Drawing :=
  (List.range 8).foldl (fun d c => drawPixel wrap x0 y0 c r (spriteBit row c) d) d

/-- Draws the `n` rows at `base` and up, top to bottom, from no collision (R92). -/
def drawSprite (m : Memory) (base n x0 y0 : Nat) (d : Display) : Drawing :=
  (List.range n).foldl (fun d r => drawRow (spriteWraps x0 y0) x0 y0 r (m.read (base + r)) d) ⟨d, false⟩

/-- The 32 rows, top first, each 64 bytes of 0 or 1, left first (44_host_operations.md R113). -/
def displayRows (d : Display) : List (List Byte) :=
  d.toList.map fun row => row.toList.map fun b => if b then 1 else 0

end Sys2Proof.Machine
end

