-- ==== Sys2Proof/Syntax.lean ====
section
/-! DEFINITION. The 34 instructions, one constructor for each row of the opcode table (30_encoding.md R59). -/

namespace Sys2Proof

/-- An instruction with its operand fields (30_encoding.md R51, R54).
`x` and `y` are the register numbers `X` and `Y`, `nn` and `nnn` the immediates `NN` and `NNN`, and `n` is the row
count `N` of DRW, a number that the 4-bit field limits to 15 (checked by `Instr.wf`). -/
inductive Instr where
  /-- `00E0`: clear the display (R66). -/
  | cls
  /-- `00EE`: return from subroutine (R67). -/
  | ret
  /-- `1NNN`: jump (R68). -/
  | jp (nnn : Addr)
  /-- `2NNN`: call (R69). -/
  | call (nnn : Addr)
  /-- `3XNN`: skip if register equals immediate (R70). -/
  | se (x : RegNum) (nn : Byte)
  /-- `4XNN`: skip if register differs from immediate (R71). -/
  | sne (x : RegNum) (nn : Byte)
  /-- `5XY0`: skip if registers are equal (R72). -/
  | ser (x y : RegNum)
  /-- `6XNN`: load immediate (R76). -/
  | ldi (x : RegNum) (nn : Byte)
  /-- `7XNN`: add immediate, no flag (R77). -/
  | addi (x : RegNum) (nn : Byte)
  /-- `8XY0`: register copy (R78). -/
  | mov (x y : RegNum)
  /-- `8XY1`: bitwise OR (R79). -/
  | or (x y : RegNum)
  /-- `8XY2`: bitwise AND (R80). -/
  | and (x y : RegNum)
  /-- `8XY3`: bitwise XOR (R81). -/
  | xor (x y : RegNum)
  /-- `8XY4`: add, carry out in VF (R82). -/
  | add (x y : RegNum)
  /-- `8XY5`: subtract `V[Y]` from `V[X]`, no-borrow in VF (R83). -/
  | sub (x y : RegNum)
  /-- `8XY6`: shift `V[X]` right by one; `Y` is encoded and ignored (R84, R61). -/
  | shr (x y : RegNum)
  /-- `8XY7`: subtract `V[X]` from `V[Y]`, no-borrow in VF (R85). -/
  | subn (x y : RegNum)
  /-- `8XYE`: shift `V[X]` left by one; `Y` is encoded and ignored (R86, R61). -/
  | shl (x y : RegNum)
  /-- `9XY0`: skip if registers differ (R73). -/
  | sner (x y : RegNum)
  /-- `ANNN`: set the index register (R89). -/
  | idx (nnn : Addr)
  /-- `BNNN`: set the index register to the address plus `V[0]`; not a jump (R90). -/
  | idxo (nnn : Addr)
  /-- `CXNN`: random byte under a mask (R91). -/
  | rnd (x : RegNum) (nn : Byte)
  /-- `DXYN`: draw a sprite of `n` rows (R92). -/
  | drw (x y : RegNum) (n : Nat)
  /-- `EX9E`: skip if the key is down (R94). -/
  | skp (x : RegNum)
  /-- `EXA1`: skip if the key is up (R95). -/
  | sknp (x : RegNum)
  /-- `FX07`: read the delay timer (R97). -/
  | rddt (x : RegNum)
  /-- `FX0A`: wait for a key (R98). -/
  | waitk (x : RegNum)
  /-- `FX15`: set the delay timer (R99). -/
  | wrdt (x : RegNum)
  /-- `FX18`: set the sound timer (R100). -/
  | wrst (x : RegNum)
  /-- `FX1E`: add a register to the index register (R101). -/
  | addx (x : RegNum)
  /-- `FX29`: address of a glyph (R102). -/
  | font (x : RegNum)
  /-- `FX33`: store three decimal digits (R103). -/
  | bcd (x : RegNum)
  /-- `FX55`: store registers 0 to X (R104). -/
  | stm (x : RegNum)
  /-- `FX65`: load registers 0 to X (R105). -/
  | ldm (x : RegNum)
  deriving DecidableEq, Repr

/-- The row number `#` of the instruction in the table of 30_encoding.md R59. -/
def Instr.row : Instr → Nat
  | .cls => 1
  | .ret => 2
  | .jp _ => 3
  | .call _ => 4
  | .se _ _ => 5
  | .sne _ _ => 6
  | .ser _ _ => 7
  | .ldi _ _ => 8
  | .addi _ _ => 9
  | .mov _ _ => 10
  | .or _ _ => 11
  | .and _ _ => 12
  | .xor _ _ => 13
  | .add _ _ => 14
  | .sub _ _ => 15
  | .shr _ _ => 16
  | .subn _ _ => 17
  | .shl _ _ => 18
  | .sner _ _ => 19
  | .idx _ => 20
  | .idxo _ => 21
  | .rnd _ _ => 22
  | .drw _ _ _ => 23
  | .skp _ => 24
  | .sknp _ => 25
  | .rddt _ => 26
  | .waitk _ => 27
  | .wrdt _ => 28
  | .wrst _ => 29
  | .addx _ => 30
  | .font _ => 31
  | .bcd _ => 32
  | .stm _ => 33
  | .ldm _ => 34

end Sys2Proof
end

