-- ==== Sys2Proof/WellFormed.lean ====
section
/-! DEFINITION. When a term of `Instr` is an instruction of the engine.
Register numbers and immediates carry their bounds in their types, so the row count of DRW is the one operand left
to check (log 24). -/

namespace Sys2Proof

/-- `N` is a 4-bit field, 0 to 15 (30_encoding.md R54); every other operand is in range by its type. -/
def Instr.wf : Instr → Bool
  | .drw _ _ n => decide (n < 16)
  | .cls | .ret | .jp _ | .call _ | .se _ _ | .sne _ _ | .ser _ _ | .ldi _ _ | .addi _ _ | .mov _ _ | .or _ _
  | .and _ _ | .xor _ _ | .add _ _ | .sub _ _ | .shr _ _ | .subn _ _ | .shl _ _ | .sner _ _ | .idx _ | .idxo _
  | .rnd _ _ | .skp _ | .sknp _ | .rddt _ | .waitk _ | .wrdt _ | .wrst _ | .addx _ | .font _ | .bcd _ | .stm _
  | .ldm _ => true

end Sys2Proof
end

