-- ==== Sys2Proof/Decode.lean ====
section
/-! DEFINITION. Instruction words: their fields, the decoder of 30_encoding.md R53, the opcode table of R59, and the
encoder written from the same formats (R51).
UNVERIFIED (log 10): the selector numbers are the spec's own choice where its source prints none. -/

namespace Sys2Proof

/-- Why bytes are no instruction: each reason by name. -/
inductive DecodeError where
  /-- Fewer than the two bytes every instruction has (R49). -/
  | truncated
  /-- The word is one of the illegal words of R60. -/
  | illegal (w : Word)
  deriving DecidableEq, Repr

/-! ### Fields (R54) -/

/-- `op = w[15:12]`, as a number. -/
def fieldOp (w : Word) : Nat := (w.extractLsb' 12 4).toNat

/-- `X = w[11:8]`, a register number. -/
def fieldX (w : Word) : RegNum := (w.extractLsb' 8 4).toFin

/-- `Y = w[7:4]`, a register number. -/
def fieldY (w : Word) : RegNum := (w.extractLsb' 4 4).toFin

/-- `N = w[3:0]`, as a number. -/
def fieldN (w : Word) : Nat := (w.extractLsb' 0 4).toNat

/-- `NN = w[7:0]`. -/
def fieldNN (w : Word) : Byte := w.extractLsb' 0 8

/-- `NNN = w[11:0]`. -/
def fieldNNN (w : Word) : Addr := w.extractLsb' 0 12

/-! ### The decoder (R53) -/

/-- Level two of high nibble 8: the function is `w[3:0]` (R57). -/
def decodeAlu (w : Word) : Except DecodeError Instr :=
  match fieldN w with
  | 0x0 => .ok (.mov (fieldX w) (fieldY w))
  | 0x1 => .ok (.or (fieldX w) (fieldY w))
  | 0x2 => .ok (.and (fieldX w) (fieldY w))
  | 0x3 => .ok (.xor (fieldX w) (fieldY w))
  | 0x4 => .ok (.add (fieldX w) (fieldY w))
  | 0x5 => .ok (.sub (fieldX w) (fieldY w))
  | 0x6 => .ok (.shr (fieldX w) (fieldY w))
  | 0x7 => .ok (.subn (fieldX w) (fieldY w))
  | 0xE => .ok (.shl (fieldX w) (fieldY w))
  | _ => .error (.illegal w)

/-- Level two of high nibble E: the function is the low byte (R58). -/
def decodeKey (w : Word) : Except DecodeError Instr :=
  match (fieldNN w).toNat with
  | 0x9E => .ok (.skp (fieldX w))
  | 0xA1 => .ok (.sknp (fieldX w))
  | _ => .error (.illegal w)

/-- Level two of high nibble F: the function is the low byte (R58). -/
def decodeMisc (w : Word) : Except DecodeError Instr :=
  match (fieldNN w).toNat with
  | 0x07 => .ok (.rddt (fieldX w))
  | 0x0A => .ok (.waitk (fieldX w))
  | 0x15 => .ok (.wrdt (fieldX w))
  | 0x18 => .ok (.wrst (fieldX w))
  | 0x1E => .ok (.addx (fieldX w))
  | 0x29 => .ok (.font (fieldX w))
  | 0x33 => .ok (.bcd (fieldX w))
  | 0x55 => .ok (.stm (fieldX w))
  | 0x65 => .ok (.ldm (fieldX w))
  | _ => .error (.illegal w)

/-- `Decode(w)` (R53): a function of the word alone. -/
def decodeWord (w : Word) : Except DecodeError Instr :=
  match fieldOp w with
  | 0x0 => if w = 0x00E0 then .ok .cls else if w = 0x00EE then .ok .ret else .error (.illegal w)
  | 0x1 => .ok (.jp (fieldNNN w))
  | 0x2 => .ok (.call (fieldNNN w))
  | 0x3 => .ok (.se (fieldX w) (fieldNN w))
  | 0x4 => .ok (.sne (fieldX w) (fieldNN w))
  | 0x5 => if fieldN w = 0 then .ok (.ser (fieldX w) (fieldY w)) else .error (.illegal w)
  | 0x6 => .ok (.ldi (fieldX w) (fieldNN w))
  | 0x7 => .ok (.addi (fieldX w) (fieldNN w))
  | 0x8 => decodeAlu w
  | 0x9 => if fieldN w = 0 then .ok (.sner (fieldX w) (fieldY w)) else .error (.illegal w)
  | 0xA => .ok (.idx (fieldNNN w))
  | 0xB => .ok (.idxo (fieldNNN w))
  | 0xC => .ok (.rnd (fieldX w) (fieldNN w))
  | 0xD => .ok (.drw (fieldX w) (fieldY w) (fieldN w))
  | 0xE => decodeKey w
  | 0xF => decodeMisc w
  | _ => .error (.illegal w)

/-! ### Bytes (R36, R49) -/

/-- The two bytes of a word, the high byte first: it stands at the lower address (R36). -/
def wordBytes (w : Word) : List Byte := [w.extractLsb' 8 8, w.extractLsb' 0 8]

/-- The word of two bytes, `hi` from the lower address: `hi * 256 + lo` (R36). -/
def wordOfBytes (hi lo : Byte) : Word := BitVec.ofNat 16 (hi.toNat * 256 + lo.toNat)

/-- Decodes the first instruction of a byte sequence and answers it with the bytes after it. -/
def decode : List Byte → Except DecodeError (Instr × List Byte)
  | hi :: lo :: rest =>
    match decodeWord (wordOfBytes hi lo) with
    | .ok i => .ok (i, rest)
    | .error e => .error e
  | [_] | [] => .error .truncated

/-- The word with the low `nbits` bits of `w`, every bit above them 0. -/
def tableWord (nbits w : Nat) : Word := BitVec.ofNat 16 (w % 2 ^ nbits)

/-- What the decoder reads from the instruction whose bits are `w`, numbered as the opcode table numbers them. -/
def decodeTableWord (nbits w : Nat) : Option Instr :=
  match decode (wordBytes (tableWord nbits w)) with
  | .ok (i, _) => some i
  | .error _ => none

/-! ### The encoder -/

/-- Format `A` (R51): `op` in bits 15:12, `NNN` in bits 11:0. -/
def encodeA (op : Nat) (nnn : Addr) : Word := BitVec.ofNat 16 (op * 0x1000 + nnn.toNat)

/-- Formats `XI` and `XF` (R51): `op` in bits 15:12, `X` in bits 11:8, `NN` or the function in bits 7:0. -/
def encodeXI (op : Nat) (x : RegNum) (nn : Byte) : Word := BitVec.ofNat 16 (op * 0x1000 + x.val * 0x100 + nn.toNat)

/-- Formats `XY` and `XYN` (R51): `op` in bits 15:12, `X` in bits 11:8, `Y` in bits 7:4, the function or the row count in
bits 3:0. -/
def encodeXY (op : Nat) (x y : RegNum) (n : Nat) : Word :=
  BitVec.ofNat 16 (op * 0x1000 + x.val * 0x100 + y.val * 0x10 + n % 0x10)

/-- The word of an instruction (R51, R59). The term of an ill-formed DRW loses the high bits of its count. -/
def encode : Instr → Word
  | .cls => 0x00E0
  | .ret => 0x00EE
  | .jp nnn => encodeA 0x1 nnn
  | .call nnn => encodeA 0x2 nnn
  | .se x nn => encodeXI 0x3 x nn
  | .sne x nn => encodeXI 0x4 x nn
  | .ser x y => encodeXY 0x5 x y 0x0
  | .ldi x nn => encodeXI 0x6 x nn
  | .addi x nn => encodeXI 0x7 x nn
  | .mov x y => encodeXY 0x8 x y 0x0
  | .or x y => encodeXY 0x8 x y 0x1
  | .and x y => encodeXY 0x8 x y 0x2
  | .xor x y => encodeXY 0x8 x y 0x3
  | .add x y => encodeXY 0x8 x y 0x4
  | .sub x y => encodeXY 0x8 x y 0x5
  | .shr x y => encodeXY 0x8 x y 0x6
  | .subn x y => encodeXY 0x8 x y 0x7
  | .shl x y => encodeXY 0x8 x y 0xE
  | .sner x y => encodeXY 0x9 x y 0x0
  | .idx nnn => encodeA 0xA nnn
  | .idxo nnn => encodeA 0xB nnn
  | .rnd x nn => encodeXI 0xC x nn
  | .drw x y n => encodeXY 0xD x y n
  | .skp x => encodeXI 0xE x 0x9E
  | .sknp x => encodeXI 0xE x 0xA1
  | .rddt x => encodeXI 0xF x 0x07
  | .waitk x => encodeXI 0xF x 0x0A
  | .wrdt x => encodeXI 0xF x 0x15
  | .wrst x => encodeXI 0xF x 0x18
  | .addx x => encodeXI 0xF x 0x1E
  | .font x => encodeXI 0xF x 0x29
  | .bcd x => encodeXI 0xF x 0x33
  | .stm x => encodeXI 0xF x 0x55
  | .ldm x => encodeXI 0xF x 0x65

/-! ### The opcode table (R59) -/

/-- One row of the table of R59: its number, and the `match` and `mask` words that select it. -/
structure OpcodeRow where
  number : Nat
  bits : Word
  mask : Word
  deriving DecidableEq, Repr

/-- `w` selects the row exactly when `w & mask = match` (R59). -/
def rowSelects (w : Word) (r : OpcodeRow) : Bool := w &&& r.mask == r.bits

/-- The 34 rows of R59, written from its `match` and `mask` columns. -/
def opcodeTable : List OpcodeRow :=
  [⟨1, 0x00E0, 0xFFFF⟩, ⟨2, 0x00EE, 0xFFFF⟩, ⟨3, 0x1000, 0xF000⟩, ⟨4, 0x2000, 0xF000⟩, ⟨5, 0x3000, 0xF000⟩,
   ⟨6, 0x4000, 0xF000⟩, ⟨7, 0x5000, 0xF00F⟩, ⟨8, 0x6000, 0xF000⟩, ⟨9, 0x7000, 0xF000⟩] ++
  [⟨10, 0x8000, 0xF00F⟩, ⟨11, 0x8001, 0xF00F⟩, ⟨12, 0x8002, 0xF00F⟩, ⟨13, 0x8003, 0xF00F⟩, ⟨14, 0x8004, 0xF00F⟩,
   ⟨15, 0x8005, 0xF00F⟩, ⟨16, 0x8006, 0xF00F⟩, ⟨17, 0x8007, 0xF00F⟩, ⟨18, 0x800E, 0xF00F⟩] ++
  [⟨19, 0x9000, 0xF00F⟩, ⟨20, 0xA000, 0xF000⟩, ⟨21, 0xB000, 0xF000⟩, ⟨22, 0xC000, 0xF000⟩, ⟨23, 0xD000, 0xF000⟩,
   ⟨24, 0xE09E, 0xF0FF⟩, ⟨25, 0xE0A1, 0xF0FF⟩] ++
  [⟨26, 0xF007, 0xF0FF⟩, ⟨27, 0xF00A, 0xF0FF⟩, ⟨28, 0xF015, 0xF0FF⟩, ⟨29, 0xF018, 0xF0FF⟩, ⟨30, 0xF01E, 0xF0FF⟩,
   ⟨31, 0xF029, 0xF0FF⟩, ⟨32, 0xF033, 0xF0FF⟩, ⟨33, 0xF055, 0xF0FF⟩, ⟨34, 0xF065, 0xF0FF⟩]

end Sys2Proof
end

