-- ==== Sys2Proof/Machine/Operands.lean ====
section
/-! DEFINITION. The operand forms: registers, immediates and addresses, key indices, and what the addressing of
memory through `I` covers (30_encoding.md R54, 20_memory.md R35, R39). -/

namespace Sys2Proof.Machine

/-- `V[x]` (10_state.md R14). -/
def readV (x : RegNum) (s : State) : Byte := s.v[x]

/-- The registers `V[0]` to `V[x]`, in order (43_timer_memory.md R104: an inclusive range). -/
def firstRegs (x : RegNum) (s : State) : List Byte := s.v.toList.take (x.val + 1)

/-- `zext_16(NNN)` (R54). -/
def zextAddr (nnn : Addr) : Word := nnn.setWidth 16

/-- `zext_16` of a register's value, for the additions to an address (R87, R90, R101). -/
def zextByte (b : Byte) : Word := b.setWidth 16

/-- `FONT_BASE + FONT_STRIDE * (b & 0xF)`, the address of the glyph of a low nibble (43_timer_memory.md R102).
UNVERIFIED (log 17): the result for a value above 15 is decision D18 of the spec. -/
def glyphAddress (b : Byte) : Word := BitVec.ofNat 16 (Config.fontBase + Config.fontStride * (b &&& 0x0F).toNat)

/-- The flag a key index selects, if it is one: the whole value counts, not its low nibble (42_display_keypad.md R94). -/
def keyIndex (k : Nat) : Option (Fin 16) := if h : k < 16 then some ⟨k, h⟩ else none

/-- The hundreds, tens and units digits of a byte, most significant first (43_timer_memory.md R103, 20_memory.md R37). -/
def bcdDigits (b : Byte) : List Byte :=
  [BitVec.ofNat 8 (b.toNat / 100), BitVec.ofNat 8 (b.toNat / 10 % 10), BitVec.ofNat 8 (b.toNat % 10)]

/-- The range of `n` bytes from `a` exists: it is empty or ends below 4096 (20_memory.md R39). -/
def inRange (a n : Nat) : Bool := n == 0 || decide (a + n ≤ Config.memSize)

/-- The value RND writes for the drawn byte `r` (42_display_keypad.md R91). -/
def rndValue (r nn : Byte) : Byte := r &&& nn

end Sys2Proof.Machine
end

