-- ==== Sys2Proof/Machine/Ops.lean ====
section
/-! DEFINITION. The shared operations over registers, `pc`, the stack and memory; the one way a fault is raised; and
the fetch of an instruction. -/

namespace Sys2Proof.Machine

/-! ### Registers and `pc` -/

/-- `V[x] <- b` (00_scope.md R10). -/
def writeV (x : RegNum) (b : Byte) (s : State) : State := { s with v := s.v.set x b }

/-- `V[x] <- r`, then `V[15] <- flag`, so that with `x = 15` the flag survives (41_alu.md R75).
UNVERIFIED (log 11): the order is decision D6 of the spec. -/
def writeResultFlag (x : RegNum) (r flag : Byte) (s : State) : State := writeV vf flag (writeV x r s)

/-- `V[0]` to `V[x]` take the bytes at `base` and up; the other registers keep their values (43_timer_memory.md R105). -/
def loadRegs (x : RegNum) (base : Nat) (s : State) : State :=
  { s with v := Vector.ofFn fun j : Fin 16 => if j.val ≤ x.val then s.mem.read (base + j.val) else s.v[j] }

/-- `pc <- pc + 2` (10_state.md R17), in 16 bits (log 26). -/
def advance (s : State) : State := { s with pc := s.pc + 2 }

/-- `pc <- pc + 4` when the condition holds, else `pc + 2` (40_control_flow.md R74). -/
def skipIf (cond : Bool) (s : State) : State := { s with pc := s.pc + if cond then 4 else 2 }

/-! ### Faults (60_exceptions.md R117 to R130) -/

/-- Ends the operation with the fault: control goes to the host and no state changes (R128, R129).
The engine has no trap entry and no return from one (R129, R130), so this is all that a fault does. -/
def raise (f : Fault) : Result := .fault f

/-- Goes on only if the range of `n` bytes from `a` exists; the check comes before every change (20_memory.md R39). -/
def guardRange (a n : Nat) (go : Result) : Result :=
  if inRange a n then go else raise (.memoryAccessOutOfRange a n)

/-- Skips on the flag of the key that `V[x]` names (42_display_keypad.md R94, R95).
UNVERIFIED (log 19): the fault for a value above 15 is decision D20 of the spec. -/
def skipOnKey (x : RegNum) (cond : Bool → Bool) (s : State) : Result :=
  match keyIndex (readV x s).toNat with
  | none => raise (.invalidKeyIndex (readV x s).toNat)
  | some k => .next (skipIf (cond s.key[k]) s)

/-! ### The call stack (10_state.md R20, R21) -/

/-- `stack[sp] <- pc`, `sp <- sp + 1`; none with a full stack (40_control_flow.md R69). -/
def pushPc (s : State) : Option State :=
  if h : s.sp.val < 16 then
    some { s with stack := s.stack.set s.sp.val s.pc, sp := ⟨s.sp.val + 1, Nat.succ_lt_succ h⟩ }
  else
    none

/-- The entry on top of a stack that is not empty, `stack[sp - 1]` (R20). -/
def topEntry (s : State) : Word :=
  s.stack[s.sp.val - 1]'(by have := s.sp.isLt; omega)

/-- `sp <- sp - 1` and the popped entry, which stays in its place (R20, R67); none with an empty stack. -/
def popEntry (s : State) : Option (Word × State) :=
  if s.sp.val = 0 then none
  else some (topEntry s, { s with sp := ⟨s.sp.val - 1, by have := s.sp.isLt; omega⟩ })

/-! ### Memory through the state -/

/-- Writes consecutive bytes in ascending address order (20_memory.md R37). -/
def storeAt (base : Nat) (bytes : List Byte) (s : State) : State := { s with mem := s.mem.storeBytes base bytes }

/-- `MemRead(addr, 2)`: a big-endian word, or the fault (20_memory.md R36, R40). -/
def memReadWord (m : Memory) (a : Nat) : Except Fault Word :=
  if inRange a 2 then .ok (wordOfBytes (m.read a) (m.read (a + 1))) else .error (.memoryAccessOutOfRange a 2)

/-! ### The random source -/

/-- The next drawn byte, and the state after the draw (42_display_keypad.md R91). -/
def drawByte (s : State) : Byte × State := (Config.randByte s.draws, { s with draws := s.draws + 1 })

/-! ### Fetch and decode (44_host_operations.md R109) -/

/-- The word at `pc` (30_encoding.md R50). -/
def fetchWord (s : State) : Except Fault Word := memReadWord s.mem s.pc.toNat

/-- The instruction at `pc`: the fetch fault comes before the decode fault (60_exceptions.md R127). -/
def fetchInstr (s : State) : Except Fault Instr :=
  match fetchWord s with
  | .error f => .error f
  | .ok w =>
    match decodeWord w with
    | .ok i => .ok i
    | .error _ => .error (.unknownOpcode w s.pc)

/-- Step while `blocking` is set: nothing happens (R109; log 6). -/
def stepBlocked (s : State) : Result := .next s

/-- The numeric code of a fault (60_exceptions.md R121); nothing depends on it. -/
def faultCode : Fault → Nat
  | .unknownOpcode _ _ => 1
  | .stackUnderflow _ => 2
  | .stackOverflow _ => 3
  | .memoryAccessOutOfRange _ _ => 4
  | .invalidKeyIndex _ => 5

end Sys2Proof.Machine
end

