-- ==== Sys2Proof/Machine/Alu.lean ====
section
/-! DEFINITION. The arithmetic, logic and register instructions (41_alu.md R75 to R87).
All sources are read from the state before the instruction (00_scope.md R11). -/

namespace Sys2Proof.Machine

/-- LDI (R76). -/
def execLdi (x : RegNum) (nn : Byte) (s : State) : Result := .next (advance (writeV x nn s))

/-- ADDI (R77): modulo 256, no flag. -/
def execAddi (x : RegNum) (nn : Byte) (s : State) : Result := .next (advance (writeV x (readV x s + nn) s))

/-- MOV (R78). -/
def execMov (x y : RegNum) (s : State) : Result := .next (advance (writeV x (readV y s) s))

/-- OR (R79). -/
def execOr (x y : RegNum) (s : State) : Result := .next (advance (writeV x (readV x s ||| readV y s) s))

/-- AND (R80). -/
def execAnd (x y : RegNum) (s : State) : Result := .next (advance (writeV x (readV x s &&& readV y s) s))

/-- XOR (R81). -/
def execXor (x y : RegNum) (s : State) : Result := .next (advance (writeV x (readV x s ^^^ readV y s) s))

/-- ADD (R82): VF is the carry out. -/
def execAdd (x y : RegNum) (s : State) : Result :=
  let a := readV x s
  let b := readV y s
  .next (advance (writeResultFlag x (a + b) (carryFlag a b) s))

/-- SUB (R83): `V[X] - V[Y]`, VF is no-borrow. -/
def execSub (x y : RegNum) (s : State) : Result :=
  let a := readV x s
  let b := readV y s
  .next (advance (writeResultFlag x (a - b) (noBorrowFlag a b) s))

/-- SHR (R84): in place on `V[X]`; `Y` is ignored (30_encoding.md R61). -/
def execShr (x _y : RegNum) (s : State) : Result :=
  let a := readV x s
  .next (advance (writeResultFlag x (a >>> 1) (lowBitFlag a) s))

/-- SUBN (R85): `V[Y] - V[X]`, VF is no-borrow. -/
def execSubn (x y : RegNum) (s : State) : Result :=
  let a := readV x s
  let b := readV y s
  .next (advance (writeResultFlag x (b - a) (noBorrowFlag b a) s))

/-- SHL (R86): in place on `V[X]`; `Y` is ignored (30_encoding.md R61). -/
def execShl (x _y : RegNum) (s : State) : Result :=
  let a := readV x s
  .next (advance (writeResultFlag x (a <<< 1) (highBitFlag a) s))

end Sys2Proof.Machine
end

