-- ==== Sys2Proof/Machine/ControlFlow.lean ====
section
/-! DEFINITION. The control-flow instructions (40_control_flow.md R65 to R74). -/

namespace Sys2Proof.Machine

/-- CLS (R66). -/
def execCls (s : State) : Result := .next (advance { s with display := clearDisplay })

/-- RET (R67): resumes at the popped address plus 2. -/
def execRet (s : State) : Result :=
  match popEntry s with
  | none => raise (.stackUnderflow s.pc)
  | some (entry, s') => .next { s' with pc := entry + 2 }

/-- JP (R68). -/
def execJp (nnn : Addr) (s : State) : Result := .next { s with pc := zextAddr nnn }

/-- CALL (R69): pushes its own address. -/
def execCall (nnn : Addr) (s : State) : Result :=
  match pushPc s with
  | none => raise (.stackOverflow s.pc)
  | some s' => .next { s' with pc := zextAddr nnn }

/-- SE (R70). -/
def execSe (x : RegNum) (nn : Byte) (s : State) : Result := .next (skipIf (readV x s == nn) s)

/-- SNE (R71). -/
def execSne (x : RegNum) (nn : Byte) (s : State) : Result := .next (skipIf (readV x s != nn) s)

/-- SER (R72). -/
def execSer (x y : RegNum) (s : State) : Result := .next (skipIf (readV x s == readV y s) s)

/-- SNER (R73). -/
def execSner (x y : RegNum) (s : State) : Result := .next (skipIf (readV x s != readV y s) s)

end Sys2Proof.Machine
end

