-- ==== Sys2Proof/Machine/DisplayKeypad.lean ====
section
/-! DEFINITION. The index, random, display and keypad instructions (42_display_keypad.md R88 to R95). -/

namespace Sys2Proof.Machine

/-- IDX (R89). -/
def execIdx (nnn : Addr) (s : State) : Result := .next (advance { s with i := zextAddr nnn })

/-- IDXO (R90): not a jump; only `I` changes (90_conflicts.md C4). -/
def execIdxo (nnn : Addr) (s : State) : Result :=
  .next (advance { s with i := zextAddr nnn + zextByte (readV 0 s) })

/-- RND (R91): the drawn byte is a free value (log 1). -/
def execRnd (x : RegNum) (nn : Byte) (s : State) : Result :=
  match drawByte s with
  | (r, s') => .next (advance (writeV x (rndValue r nn) s'))

/-- DRW (R92): the anchor is read before VF is written; the whole range is checked before anything is drawn.
UNVERIFIED (log 12): decisions D7 and D10 of the spec. -/
def execDrw (x y : RegNum) (n : Nat) (s : State) : Result :=
  guardRange s.i.toNat n
    (let d := drawSprite s.mem s.i.toNat n (readV x s).toNat (readV y s).toNat s.display
     .next (advance (writeV vf (flagByte d.collision) { s with display := d.display })))

/-- SKP (R94). -/
def execSkp (x : RegNum) (s : State) : Result := skipOnKey x (fun down => down) s

/-- SKNP (R95). -/
def execSknp (x : RegNum) (s : State) : Result := skipOnKey x (fun down => !down) s

end Sys2Proof.Machine
end

