-- ==== Sys2Proof/Machine/TimerMemory.lean ====
section
/-! DEFINITION. The timer, key-wait, index and memory-transfer instructions (43_timer_memory.md R96 to R105).
UNVERIFIED (log 16): that FONT, BCD, STM and LDM advance `pc` by 2 and that BCD, STM and LDM keep `I` are decisions
D16 and D17 of the spec. -/

namespace Sys2Proof.Machine

/-- RDDT (R97). -/
def execRddt (x : RegNum) (s : State) : Result := .next (advance (writeV x s.dt s))

/-- WAITK (R98): `pc` stays, and `V[X]` is written only when the host completes the wait. -/
def execWaitk (_x : RegNum) (s : State) : Result :=
  .next { s with blocking := true, key := Vector.replicate 16 false }

/-- WRDT (R99). -/
def execWrdt (x : RegNum) (s : State) : Result := .next (advance { s with dt := readV x s })

/-- WRST (R100). -/
def execWrst (x : RegNum) (s : State) : Result := .next (advance { s with st := readV x s })

/-- ADDX (R101): modulo 65536, no flag. UNVERIFIED (log 14): the wrap is decision D14 of the spec. -/
def execAddx (x : RegNum) (s : State) : Result := .next (advance { s with i := s.i + zextByte (readV x s) })

/-- FONT (R102). -/
def execFont (x : RegNum) (s : State) : Result := .next (advance { s with i := glyphAddress (readV x s) })

/-- BCD (R103). -/
def execBcd (x : RegNum) (s : State) : Result :=
  guardRange s.i.toNat 3 (.next (advance (storeAt s.i.toNat (bcdDigits (readV x s)) s)))

/-- STM (R104): registers 0 to X, inclusive. -/
def execStm (x : RegNum) (s : State) : Result :=
  guardRange s.i.toNat (x.val + 1) (.next (advance (storeAt s.i.toNat (firstRegs x s) s)))

/-- LDM (R105): registers 0 to X, inclusive. -/
def execLdm (x : RegNum) (s : State) : Result :=
  guardRange s.i.toNat (x.val + 1) (.next (advance (loadRegs x s.i.toNat s)))

end Sys2Proof.Machine
end

