-- ==== Sys2Proof/Machine/Step.lean ====
section
/-! DEFINITION. One Step (44_host_operations.md R109), and how the host places the next instruction. -/

namespace Sys2Proof.Machine

/-- Step (R109): the blocking test, then the fetch and the decode, then exactly one handler, which sets `pc` itself.
The outcome Blocked is the unchanged state (log 6). -/
def step (s : State) : Host.Outcome State Fault Refusal :=
  if s.blocking then stepBlocked s
  else
    match fetchInstr s with
    | .error f => raise f
    | .ok i => exec i s

/-- The state in which the next step fetches and runs the word of the low `nbits` bits of `w`.
DESIGN CHOICE (log 5): the word is stored at `pc`; a key wait is ended, and a `pc` at which no word can be fetched
becomes the entry point, because the fetch needs both. -/
def State.withFetchWord (s : State) (nbits w : Nat) : State :=
  let pc := if s.pc.toNat + 2 ≤ Config.memSize then s.pc else 0x200
  { s with blocking := false, pc := pc, mem := s.mem.storeBytes pc.toNat (wordBytes (tableWord nbits w)) }

end Sys2Proof.Machine
end

