-- ==== Sys2Proof/Machine/HostOps.lean ====
section
/-! DEFINITION. The seven operations of the host interface (44_host_operations.md R106 to R116). -/

namespace Sys2Proof.Machine

/-- What the host may invoke (R106), with the arguments of the operation. Key indices are any number, since an index
above 15 is answered with a fault (R111, R112). -/
inductive HostOp where
  /-- Construct, the engine's only reset (R107, R140). -/
  | construct
  /-- Load program (R108). -/
  | load (bytes : List Byte)
  /-- Step (R109). -/
  | step
  /-- Tick timers (R110). -/
  | tick
  /-- Keypad edge: key `k` goes down or up (R111). -/
  | keyEdge (k : Nat) (down : Bool)
  /-- Complete wait with key value `k` (R112). -/
  | completeWait (k : Nat)
  /-- Read display; its output is `readDisplay` (R113). -/
  | readDisplay
  deriving DecidableEq, Repr

/-- How an operation ends (R116). -/
inductive OpOutcome where
  /-- The state changed as the operation's rule says. -/
  | done (s : State)
  /-- Step only: nothing happened because `blocking` is set. -/
  | blocked
  /-- Complete wait only: nothing happened because no wait is in progress. -/
  | ignored
  /-- Nothing happened; the fault is reported. -/
  | fault (f : Fault)
  /-- None of R116's: a Step whose instruction has no meaning. No operation of this model ends so (log 28). -/
  | refused (r : Refusal)
  deriving DecidableEq, Repr

/-- The state after an operation: only Done changes it (R116, R128). -/
def OpOutcome.stateAfter (s : State) : OpOutcome → State
  | .done t => t
  | .blocked | .ignored | .fault _ | .refused _ => s

/-- Construct (R107): every piece of the engine's state takes its reset value.
DESIGN CHOICE (log 3): the count of random draws, which is no state of the engine, goes on, so that a new run does
not meet the old draws again. -/
def construct (s : State) : State := { State.reset with draws := s.draws }

/-- Load program (R108): copies the bytes to 0x200 and up and changes nothing else, or fails.
UNVERIFIED (log 21): failing rather than truncating, and resetting nothing, are decision D24 of the spec. -/
def loadProgram (bytes : List Byte) (s : State) : OpOutcome :=
  if bytes.length > Config.progMax then .fault (.memoryAccessOutOfRange Config.progBase bytes.length)
  else .done (storeAt Config.progBase bytes s)

/-- One timer step, floored at zero (R110). -/
def decrement (b : Byte) : Byte := if b = 0 then 0 else b - 1

/-- Tick timers (R110). -/
def tick (s : State) : State := { s with dt := decrement s.dt, st := decrement s.st }

/-- Keypad edge (R111). -/
def keyEdge (k : Nat) (down : Bool) (s : State) : OpOutcome :=
  match keyIndex k with
  | none => .fault (.invalidKeyIndex k)
  | some j => .done { s with key := s.key.set j down }

/-- Complete wait (R112): the target register is bits 11:8 of the word fetched again at `pc`.
UNVERIFIED (log 20): having no effect outside a wait and taking the re-fetched word as it is are decisions D22 and
D23 of the spec. -/
def completeWait (k : Nat) (s : State) : OpOutcome :=
  match keyIndex k with
  | none => .fault (.invalidKeyIndex k)
  | some _ =>
    if s.blocking then
      match fetchWord s with
      | .error f => .fault f
      | .ok w => .done (advance { writeV (fieldX w) (BitVec.ofNat 8 k) s with blocking := false })
    else .ignored

/-- Read display (R113): 32 rows, top first, of 64 bytes, left first, each 0 or 1. -/
def readDisplay (s : State) : List (List Byte) := displayRows s.display

/-- Step with the outcome named as R116 names it. -/
def stepOp (s : State) : OpOutcome :=
  if s.blocking then .blocked
  else
    match step s with
    | .next t => .done t
    | .fault f => .fault f
    | .refused r => .refused r

/-- One operation of the host (R106). -/
def perform (op : HostOp) (s : State) : OpOutcome :=
  match op with
  | .construct => .done (construct s)
  | .load bytes => loadProgram bytes s
  | .step => stepOp s
  | .tick => .done (tick s)
  | .keyEdge k down => keyEdge k down s
  | .completeWait k => completeWait k s
  | .readDisplay => .done s

end Sys2Proof.Machine
end

