-- ==== Sys2Proof/Safety.lean ====
section
/-! DEFINITION. The terms claims use: the invariant of the engine, the states a host can reach, runs without a fault,
the end of a run, and what each instruction may write. -/

namespace Sys2Proof.Safety

open Sys2Proof.Machine

/-- What every reachable state satisfies (10_state.md R18, R20; 44_host_operations.md R112). -/
structure Inv (s : State) : Prop where
  /-- The memory is in its canonical form. -/
  mem_wf : s.mem.wf = true
  /-- `pc` never passes 0x1002 (R18). -/
  pc_le : s.pc.toNat ≤ 0x1002
  /-- Every stack entry is an address an instruction was fetched from, so at most 0xFFE (R18, R20). -/
  stack_le : ∀ k : Fin 16, s.stack[k].toNat ≤ 0xFFE
  /-- During a key wait the word at `pc` can be fetched again (R112). -/
  wait_pc : s.blocking = true → s.pc.toNat ≤ 0xFFE

/-- The states a host can reach from Construct by operations in any order with any arguments, whatever the random
source answers (R106). -/
inductive Reachable : State → Prop where
  | construct (draws : Nat) : Reachable { State.reset with draws := draws }
  | perform (s : State) (op : HostOp) (h : Reachable s) : Reachable ((perform op s).stateAfter s)

/-- A run in which no operation ends in a fault: the state after it, or none (60_exceptions.md R130: no fault reported
so far is a premise of every claim about a run). -/
def runOps : List HostOp → State → Option State
  | [], s => some s
  | op :: rest, s =>
    match perform op s with
    | .done t => runOps rest t
    | .blocked | .ignored => runOps rest s
    | .fault _ | .refused _ => none

/-- DESIGN CHOICE (log 23): a run has ended when a jump to itself stands at `pc` and no wait is in progress, the
convention that decision D27 of the spec suggests for the open parameter `END_OF_RUN`. -/
def Ended (s : State) : Prop :=
  s.blocking = false ∧ ∃ nnn : Addr, fetchInstr s = .ok (.jp nnn) ∧ zextAddr nnn = s.pc

/-! ### Which faults, and when (60_exceptions.md R121 to R127) -/

/-- The one check a handler makes, by the instruction: the fault its rule names, or none (R123 to R127). -/
def instrFault (i : Instr) (s : State) : Option Fault :=
  match i with
  | .ret => if s.sp.val = 0 then some (.stackUnderflow s.pc) else none
  | .call _ => if s.sp.val = 16 then some (.stackOverflow s.pc) else none
  | .drw _ _ n => if n ≥ 1 ∧ s.i.toNat + n > 4096 then some (.memoryAccessOutOfRange s.i.toNat n) else none
  | .bcd _ => if s.i.toNat + 3 > 4096 then some (.memoryAccessOutOfRange s.i.toNat 3) else none
  | .stm x | .ldm x =>
    if s.i.toNat + (x.val + 1) > 4096 then some (.memoryAccessOutOfRange s.i.toNat (x.val + 1)) else none
  | .skp x | .sknp x => if s.v[x].toNat > 15 then some (.invalidKeyIndex s.v[x].toNat) else none
  | .cls | .jp _ | .se _ _ | .sne _ _ | .ser _ _ | .sner _ _ | .ldi _ _ | .addi _ _ | .mov _ _ | .or _ _ | .and _ _
  | .xor _ _ | .add _ _ | .sub _ _ | .shr _ _ | .subn _ _ | .shl _ _ | .idx _ | .idxo _ | .rnd _ _ | .rddt _ | .waitk _
  | .wrdt _ | .wrst _ | .addx _ | .font _ => none

/-- The fault an operation ends in, if any, in the order the spec detects it (R122, R125 to R127; log 13). -/
def opFault (op : HostOp) (s : State) : Option Fault :=
  match op with
  | .construct | .tick | .readDisplay => none
  | .load bytes => if bytes.length > 3584 then some (.memoryAccessOutOfRange 0x200 bytes.length) else none
  | .step =>
    if s.blocking = true then none
    else if s.pc.toNat ≥ 0xFFF then some (.memoryAccessOutOfRange s.pc.toNat 2)
    else
      let w := wordOfBytes (s.mem.read s.pc.toNat) (s.mem.read (s.pc.toNat + 1))
      match decodeWord w with
      | .error _ => some (.unknownOpcode w s.pc)
      | .ok i => instrFault i s
  | .keyEdge k _ => if k > 15 then some (.invalidKeyIndex k) else none
  | .completeWait k =>
    if k > 15 then some (.invalidKeyIndex k)
    else if s.blocking = true ∧ s.pc.toNat ≥ 0xFFF then some (.memoryAccessOutOfRange s.pc.toNat 2)
    else none

/-! ### What a store leaves in memory -/

/-- The byte at `a` after `bytes` are stored at `base` and up: the stored one inside their range, the old one outside
it (20_memory.md R37, R46). -/
def byteAfterStore (m : Memory) (base : Nat) (bytes : List Byte) (a : Nat) : Byte :=
  if base ≤ a ∧ a < base + bytes.length then bytes.getD (a - base) 0 else m.read a

/-! ### What an instruction may write (10_state.md R14, R15, R19 to R26) -/

/-- The general registers an instruction may write: its destination, and VF where it is written as a flag. -/
def writesReg : Instr → RegNum → Bool
  | .ldi x _, r | .addi x _, r | .mov x _, r | .or x _, r | .and x _, r | .xor x _, r | .rnd x _, r | .rddt x, r => r == x
  | .add x _, r | .sub x _, r | .shr x _, r | .subn x _, r | .shl x _, r => r == x || r == vf
  | .drw _ _ _, r => r == vf
  | .ldm x, r => decide (r ≤ x)
  | .cls, _ | .ret, _ | .jp _, _ | .call _, _ | .se _ _, _ | .sne _ _, _ | .ser _ _, _ | .sner _ _, _ | .idx _, _
  | .idxo _, _ | .skp _, _ | .sknp _, _ | .waitk _, _ | .wrdt _, _ | .wrst _, _ | .addx _, _ | .font _, _ | .bcd _, _
  | .stm _, _ => false

/-- `I` is written by IDX, IDXO, ADDX and FONT (R19). -/
def writesIndex : Instr → Bool
  | .idx _ | .idxo _ | .addx _ | .font _ => true
  | _ => false

/-- The call stack and its pointer are changed by CALL and RET (R20, R21). -/
def writesStack : Instr → Bool
  | .call _ | .ret => true
  | _ => false

/-- The display is changed by CLS and DRW (R24). -/
def writesDisplay : Instr → Bool
  | .cls | .drw _ _ _ => true
  | _ => false

/-- The memory is changed by BCD and STM (20_memory.md R35). -/
def writesMemory : Instr → Bool
  | .bcd _ | .stm _ => true
  | _ => false

end Sys2Proof.Safety
end

