-- ==== Sys2Proof/Certificates/Slice0/Obligations.lean ====
section
/-! DEFINITION. The statements for the provers: what the instructions, the Step and the host operations do.
Log numbers are rows of notes/assumptions; D numbers are rows of spec/92_eei_decisions.md. -/

open Sys2Proof Sys2Proof.Machine Sys2Proof.Safety

/-- The sprite of `n` rows, row `r` being `rows r`, puts a 1 bit on the pixel (`px`, `py`): bit 7 of a row is its
leftmost pixel, an anchor (`x0`, `y0`) outside the grid wraps every pixel, and an anchor inside wraps none, so that a
pixel past an edge falls nowhere (42_display_keypad.md R93, decisions D8 and D9; log 12). -/
def Sys2Proof.Safety.SpriteCovers (x0 y0 n : Nat) (rows : Nat → Byte) (px : Fin 64) (py : Fin 32) : Prop :=
  ∃ r, r < n ∧ ∃ c, c < 8 ∧ (rows r).getLsbD (7 - c) = true ∧
    if x0 ≥ 64 ∨ y0 ≥ 32 then (x0 + c) % 64 = px.val ∧ (y0 + r) % 32 = py.val
    else x0 + c = px.val ∧ y0 + r = py.val

/-! ### Encoding -/

/-- Decoding the word of a well-formed instruction gives the instruction back, with every operand.
The selector numbers are decision D3 of the spec (log 10). -/
def Obligations.DecodeOfEncodedInstruction : Prop :=
  ∀ i : Instr, i.wf = true → decodeWord (encode i) = .ok i

/-- A word that decodes is the word of the instruction it decodes to, and that instruction is well formed.
The selector numbers are decision D3 of the spec (log 10). -/
def Obligations.EncodeOfDecodedWord : Prop :=
  ∀ (w : Word) (i : Instr), decodeWord w = .ok i → i.wf = true ∧ encode i = w

/-- The nested decoder (30_encoding.md R53) and the table of masks (R59) agree on every word: a legal word selects one
row, that of its instruction, and an illegal word selects none. The numbers are decision D3 of the spec (log 10). -/
def Obligations.DecoderAgreesWithOpcodeTable : Prop :=
  ∀ w : Word, (opcodeTable.filter (rowSelects w)).map OpcodeRow.number =
    match decodeWord w with
    | .ok i => [i.row]
    | .error _ => []

/-- The illegal words are exactly those that 30_encoding.md R60 lists, and each is rejected under its own name.
Decisions D3, D4 and D5 of the spec (log 10). -/
def Obligations.IllegalWordsAreThoseListed : Prop :=
  ∀ w : Word, decodeWord w = .error (.illegal w) ↔
    (fieldOp w = 0x0 ∧ w ≠ 0x00E0 ∧ w ≠ 0x00EE) ∨
    (fieldOp w = 0x5 ∧ fieldN w ≠ 0) ∨
    (fieldOp w = 0x9 ∧ fieldN w ≠ 0) ∨
    (fieldOp w = 0x8 ∧ fieldN w ∈ [0x8, 0x9, 0xA, 0xB, 0xC, 0xD, 0xF]) ∨
    (fieldOp w = 0xE ∧ (fieldNN w).toNat ∉ [0x9E, 0xA1]) ∨
    (fieldOp w = 0xF ∧ (fieldNN w).toNat ∉ [0x07, 0x0A, 0x15, 0x18, 0x1E, 0x29, 0x33, 0x55, 0x65])

/-- The four words the spec's source prints, and one word of each other family, decode to the instructions they stand
for. The numbers of the second group are decision D3 of the spec (log 10). -/
def Obligations.WordsWrittenOutDecode : Prop :=
  decode [0x60, 0x05] = .ok (.ldi 0 5, []) ∧
  decode [0x70, 0x03] = .ok (.addi 0 3, []) ∧
  decode [0xA2, 0x00] = .ok (.idx 0x200, []) ∧
  decode [0xD0, 0x05] = .ok (.drw 0 0 5, []) ∧
  decode [0x8A, 0xB5] = .ok (.sub 0xA 0xB, []) ∧
  decode [0x24, 0x56] = .ok (.call 0x456, []) ∧
  decode [0xE5, 0xA1] = .ok (.sknp 5, []) ∧
  decode [0xF5, 0x33] = .ok (.bcd 5, []) ∧
  decode [0x00, 0x00] = .error (.illegal 0x0000)

/-! ### Step -/

/-- When the two bytes at `pc` decode to an instruction and no key wait is in progress, Step is that instruction's
meaning at that state and adds nothing around it: the handler alone moves `pc` (44_host_operations.md, Step). -/
def Obligations.StepRunsTheDecodedInstruction : Prop :=
  ∀ (s : State) (i : Instr), s.blocking = false → s.pc.toNat + 2 ≤ 4096 →
    decodeWord (wordOfBytes (s.mem.read s.pc.toNat) (s.mem.read (s.pc.toNat + 1))) = .ok i → step s = exec i s

/-- What Step does where it runs no instruction, in the order it detects it: in a key wait nothing, at `pc` 0xFFF and
beyond the fetch fault, on an illegal word UnknownOpcode. The payloads and the order are decisions D12 and D31 of the
spec, the fault of the fetch is its reading (log 13). That `step` answers Blocked as the unchanged next state is the
model's choice (log 6); the spec's outcome is the one `perform` names. -/
def Obligations.StepStopsBeforeTheHandler : Prop :=
  ∀ s : State,
    (s.blocking = true → step s = .next s ∧ perform .step s = .blocked) ∧
    (s.blocking = false → s.pc.toNat ≥ 0xFFF → step s = .fault (.memoryAccessOutOfRange s.pc.toNat 2)) ∧
    (∀ w : Word, s.blocking = false → s.pc.toNat ≤ 0xFFE →
      w = wordOfBytes (s.mem.read s.pc.toNat) (s.mem.read (s.pc.toNat + 1)) → decodeWord w = .error (.illegal w) →
      step s = .fault (.unknownOpcode w s.pc))

/-- 20_memory.md R36: the fetched word is big-endian, the byte at the lower address the more significant one. -/
def Obligations.FetchIsBigEndian : Prop :=
  ∀ s : State, s.pc.toNat + 2 ≤ 4096 → ∃ w : Word, fetchWord s = .ok w ∧
    w.toNat = (s.mem.read s.pc.toNat).toNat * 256 + (s.mem.read (s.pc.toNat + 1)).toNat ∧
    w.extractLsb' 8 8 = s.mem.read s.pc.toNat ∧ w.extractLsb' 0 8 = s.mem.read (s.pc.toNat + 1)

/-- The model's own convention for placing a word (log 5): from any state, the very next step runs it. -/
def Obligations.PlacedWordRunsNext : Prop :=
  ∀ (s : State) (w : Nat) (i : Instr), decodeTableWord 16 w = some i →
    step (s.withFetchWord 16 w) = exec i (s.withFetchWord 16 w)

/-- 44_host_operations.md, outcomes: every operation ends in Done, Blocked, Ignored or a fault, never in a refusal;
only Step in a key wait is Blocked, only Complete wait outside one is Ignored (decision D22, log 20; log 28). -/
def Obligations.EveryOperationEndsAsTheSpecSays : Prop :=
  ∀ (op : HostOp) (s : State),
    (∀ r, perform op s ≠ .refused r) ∧ (∀ r, step s ≠ .refused r) ∧
    (perform op s = .blocked ↔ op = .step ∧ s.blocking = true) ∧
    (perform op s = .ignored ↔ ∃ k, k ≤ 15 ∧ op = .completeWait k ∧ s.blocking = false)

/-! ### Control flow -/

/-- 40_control_flow.md R66. -/
def Obligations.ClsClearsTheDisplay : Prop :=
  ∀ s : State, ∃ t, exec .cls s = .next t ∧ t = { s with display := t.display, pc := s.pc + 2 } ∧
    ∀ x y, pixel t.display x y = false

/-- 40_control_flow.md R67. -/
def Obligations.RetResumesAfterTheCall : Prop :=
  ∀ s : State,
    (s.sp.val = 0 → exec .ret s = .fault (.stackUnderflow s.pc)) ∧
    (∀ k : Fin 16, s.sp.val = k.val + 1 → ∃ t, exec .ret s = .next t ∧
      t = { s with sp := t.sp, pc := s.stack[k] + 2 } ∧ t.sp.val = k.val)

/-- 40_control_flow.md R68. -/
def Obligations.JpSetsPc : Prop :=
  ∀ (nnn : Addr) (s : State), exec (.jp nnn) s = .next { s with pc := BitVec.ofNat 16 nnn.toNat }

/-- 40_control_flow.md R69: the address pushed is that of the CALL itself. -/
def Obligations.CallPushesItsOwnAddress : Prop :=
  ∀ (nnn : Addr) (s : State),
    (s.sp.val = 16 → exec (.call nnn) s = .fault (.stackOverflow s.pc)) ∧
    (∀ k : Fin 16, s.sp.val = k.val → ∃ t, exec (.call nnn) s = .next t ∧
      t = { s with stack := s.stack.set k s.pc, sp := t.sp, pc := BitVec.ofNat 16 nnn.toNat } ∧ t.sp.val = k.val + 1)

/-- 40_control_flow.md R70 and R71: SE and SNE. -/
def Obligations.SkipsOnAnImmediate : Prop :=
  ∀ (x : RegNum) (nn : Byte) (s : State),
    exec (.se x nn) s = .next { s with pc := if s.v[x] = nn then s.pc + 4 else s.pc + 2 } ∧
    exec (.sne x nn) s = .next { s with pc := if s.v[x] ≠ nn then s.pc + 4 else s.pc + 2 }

/-- 40_control_flow.md R72 and R73: SER and SNER. -/
def Obligations.SkipsOnARegister : Prop :=
  ∀ (x y : RegNum) (s : State),
    exec (.ser x y) s = .next { s with pc := if s.v[x] = s.v[y] then s.pc + 4 else s.pc + 2 } ∧
    exec (.sner x y) s = .next { s with pc := if s.v[x] ≠ s.v[y] then s.pc + 4 else s.pc + 2 }

/-- A return right after a call resumes at the call's address plus 2 with the stack pointer as before the call,
wherever `pc` stands at the return (40_control_flow.md, CALL and RET). -/
def Obligations.CallThenReturnResumes : Prop :=
  ∀ (nnn : Addr) (s t : State) (pc : Word), exec (.call nnn) s = .next t →
    exec .ret { t with pc := pc } = .next { s with stack := t.stack, pc := s.pc + 2 }

/-- A jump to itself is where a run has ended (log 23, the convention of decision D27): Step changes nothing. -/
def Obligations.SelfJumpChangesNothing : Prop :=
  ∀ s : State, Ended s → step s = .next s

/-! ### Arithmetic, logic and registers -/

/-- 41_alu.md R76. -/
def Obligations.LdiLoadsTheImmediate : Prop :=
  ∀ (x : RegNum) (nn : Byte) (s : State), exec (.ldi x nn) s = .next { s with v := s.v.set x nn, pc := s.pc + 2 }

/-- 41_alu.md R77: modulo 256, and no flag. -/
def Obligations.AddiWrapsWithoutAFlag : Prop :=
  ∀ (x : RegNum) (nn : Byte) (s : State), exec (.addi x nn) s =
    .next { s with v := s.v.set x (BitVec.ofNat 8 ((s.v[x].toNat + nn.toNat) % 256)), pc := s.pc + 2 }

/-- MOV, OR, AND and XOR (41_alu.md); that they leave VF alone is decision D29 of the spec (log 22). -/
def Obligations.CopyAndLogicWriteOnlyX : Prop :=
  ∀ (x y : RegNum) (s : State),
    exec (.mov x y) s = .next { s with v := s.v.set x s.v[y], pc := s.pc + 2 } ∧
    exec (.or x y) s = .next { s with v := s.v.set x (s.v[x] ||| s.v[y]), pc := s.pc + 2 } ∧
    exec (.and x y) s = .next { s with v := s.v.set x (s.v[x] &&& s.v[y]), pc := s.pc + 2 } ∧
    exec (.xor x y) s = .next { s with v := s.v.set x (s.v[x] ^^^ s.v[y]), pc := s.pc + 2 }

/-- ADD (41_alu.md): the sum modulo 256, then the carry in VF. That the flag is written last is decision D6 of the
spec (log 11). -/
def Obligations.AddWritesTheSumThenTheCarry : Prop :=
  ∀ (x y : RegNum) (s : State),
    exec (.add x y) s = .next { s with
      v := (s.v.set x (BitVec.ofNat 8 ((s.v[x].toNat + s.v[y].toNat) % 256))).set vf
        (if s.v[x].toNat + s.v[y].toNat > 255 then 1 else 0)
      pc := s.pc + 2 }

/-- SUB and SUBN (41_alu.md): the difference modulo 256, then VF 1 iff there was no borrow. That the flag is written
last is decision D6 of the spec (log 11). -/
def Obligations.SubtractionsWriteTheDifferenceThenNoBorrow : Prop :=
  ∀ (x y : RegNum) (s : State),
    exec (.sub x y) s = .next { s with
      v := (s.v.set x (BitVec.ofInt 8 ((s.v[x].toNat : Int) - (s.v[y].toNat : Int)))).set vf
        (if s.v[x].toNat ≥ s.v[y].toNat then 1 else 0)
      pc := s.pc + 2 } ∧
    exec (.subn x y) s = .next { s with
      v := (s.v.set x (BitVec.ofInt 8 ((s.v[y].toNat : Int) - (s.v[x].toNat : Int)))).set vf
        (if s.v[y].toNat ≥ s.v[x].toNat then 1 else 0)
      pc := s.pc + 2 }

/-- SHR and SHL (41_alu.md): a shift by one of `V[X]` in place, then VF the bit shifted out; the `Y` field has no
effect. That the flag is written last is decision D6 of the spec (log 11). -/
def Obligations.ShiftsWriteTheResultThenTheBitOut : Prop :=
  ∀ (x y : RegNum) (s : State),
    exec (.shr x y) s = .next { s with
      v := (s.v.set x (BitVec.ofNat 8 (s.v[x].toNat / 2))).set vf (BitVec.ofNat 8 (s.v[x].toNat % 2))
      pc := s.pc + 2 } ∧
    exec (.shl x y) s = .next { s with
      v := (s.v.set x (BitVec.ofNat 8 (s.v[x].toNat * 2 % 256))).set vf (BitVec.ofNat 8 (s.v[x].toNat / 128))
      pc := s.pc + 2 }

/-- The six instructions that write VF as a flag leave 0 or 1 in it, whatever their operands (10_state.md, the flag
register; with `X` = 15 by decision D6 of the spec, log 11). -/
def Obligations.FlagWritersLeaveZeroOrOne : Prop :=
  ∀ (x y : RegNum) (n : Nat) (i : Instr) (s t : State),
    i ∈ [Instr.add x y, .sub x y, .subn x y, .shr x y, .shl x y, .drw x y n] → exec i s = .next t →
    t.v[vf] = 0 ∨ t.v[vf] = 1

/-! ### Index, random, display and keypad -/

/-- 42_display_keypad.md R89. -/
def Obligations.IdxSetsTheIndex : Prop :=
  ∀ (nnn : Addr) (s : State), exec (.idx nnn) s = .next { s with i := BitVec.ofNat 16 nnn.toNat, pc := s.pc + 2 }

/-- 42_display_keypad.md R90: no jump, and no overflow of the 16 bits. -/
def Obligations.IdxoAddsRegisterZero : Prop :=
  ∀ (nnn : Addr) (s : State), ∃ t, exec (.idxo nnn) s = .next t ∧ t = { s with i := t.i, pc := s.pc + 2 } ∧
    t.i.toNat = nnn.toNat + s.v[0].toNat

/-- RND (42_display_keypad.md): the drawn byte under the mask. The byte is the model's free value (log 1): nothing is
assumed of it. -/
def Obligations.RndMasksTheDrawnByte : Prop :=
  ∀ (x : RegNum) (nn : Byte) (s : State), exec (.rnd x nn) s =
    .next { s with v := s.v.set x (Config.randByte s.draws &&& nn), draws := s.draws + 1, pc := s.pc + 2 }

/-- RND (42_display_keypad.md): over all draws, the values written are exactly those with no bit outside the mask. -/
def Obligations.RndReachesExactlyTheMaskedValues : Prop :=
  ∀ nn b : Byte, (∃ r : Byte, rndValue r nn = b) ↔ b &&& ~~~nn = 0

/-- DRW (42_display_keypad.md) whose sprite lies in memory, or which has no rows: every pixel is XORed with the sprite,
VF is 1 iff a pixel that was 1 gets a 1 bit, and nothing else changes. Decisions D7 to D10 of the spec (log 12). -/
def Obligations.DrawXorsTheSpriteAndReportsCollision : Prop :=
  ∀ (x y : RegNum) (n : Nat) (s : State), n ≤ 15 → (n = 0 ∨ s.i.toNat + n ≤ 4096) →
    ∃ t, exec (.drw x y n) s = .next t ∧
      t = { s with display := t.display, v := s.v.set vf t.v[vf], pc := s.pc + 2 } ∧
      (∀ px py, pixel t.display px py = true ↔
        ¬(pixel s.display px py = true ↔
          SpriteCovers s.v[x].toNat s.v[y].toNat n (fun r => s.mem.read (s.i.toNat + r)) px py)) ∧
      (t.v[vf] = 1 ↔ ∃ px py, pixel s.display px py = true ∧
        SpriteCovers s.v[x].toNat s.v[y].toNat n (fun r => s.mem.read (s.i.toNat + r)) px py) ∧
      (t.v[vf] = 0 ∨ t.v[vf] = 1)

/-- Drawing the same sprite twice at the same anchor restores the display; if the first draw met no 1 pixel, VF after
the second is 1 iff the sprite has a visible 1 bit (42_display_keypad.md, DRW, corner case (i); 90_conflicts.md C7).
The anchor registers are not VF, which the first draw overwrites. Decisions D7 to D10 of the spec (log 12). -/
def Obligations.DrawingTwiceRestoresTheDisplay : Prop :=
  ∀ (x y : RegNum) (n : Nat) (s t : State), n ≤ 15 → x ≠ vf → y ≠ vf → exec (.drw x y n) s = .next t →
    ∃ u, exec (.drw x y n) t = .next u ∧ u.display = s.display ∧
      (t.v[vf] = 0 → (u.v[vf] = 1 ↔
        ∃ px py, SpriteCovers s.v[x].toNat s.v[y].toNat n (fun r => s.mem.read (s.i.toNat + r)) px py))

/-- SKP and SKNP (42_display_keypad.md): the whole register value names the key; a value above 15 is the fault that
decision D20 of the spec chose (log 19). -/
def Obligations.KeySkipsFollowTheFlag : Prop :=
  ∀ (x : RegNum) (s : State),
    (∀ k : Fin 16, s.v[x].toNat = k.val →
      exec (.skp x) s = .next { s with pc := if s.key[k] = true then s.pc + 4 else s.pc + 2 } ∧
      exec (.sknp x) s = .next { s with pc := if s.key[k] = false then s.pc + 4 else s.pc + 2 }) ∧
    (s.v[x].toNat > 15 →
      exec (.skp x) s = .fault (.invalidKeyIndex s.v[x].toNat) ∧
      exec (.sknp x) s = .fault (.invalidKeyIndex s.v[x].toNat))

/-! ### Timers, key wait, index and memory transfer -/

/-- 43_timer_memory.md R97. -/
def Obligations.RddtReadsTheDelayTimer : Prop :=
  ∀ (x : RegNum) (s : State), exec (.rddt x) s = .next { s with v := s.v.set x s.dt, pc := s.pc + 2 }

/-- WAITK (43_timer_memory.md): `pc` and `V[X]` stay, all key flags are cleared, and every further Step is a no-op. That
`step` answers the no-op as the unchanged next state is the model's choice (log 6). -/
def Obligations.WaitkStartsTheKeyWait : Prop :=
  ∀ (x : RegNum) (s : State), ∃ t, exec (.waitk x) s = .next t ∧ t = { s with blocking := true, key := t.key } ∧
    (∀ k : Fin 16, t.key[k] = false) ∧ step t = .next t

/-- 43_timer_memory.md R99 and R100: WRDT and WRST. -/
def Obligations.TimerWritesSetTheTimers : Prop :=
  ∀ (x : RegNum) (s : State),
    exec (.wrdt x) s = .next { s with dt := s.v[x], pc := s.pc + 2 } ∧
    exec (.wrst x) s = .next { s with st := s.v[x], pc := s.pc + 2 }

/-- ADDX (43_timer_memory.md): modulo 65536, no flag; decisions D14 and D29 of the spec (logs 14, 22). -/
def Obligations.AddxAddsToTheIndex : Prop :=
  ∀ (x : RegNum) (s : State), exec (.addx x) s =
    .next { s with i := BitVec.ofNat 16 ((s.i.toNat + s.v[x].toNat) % 65536), pc := s.pc + 2 }

/-- FONT (43_timer_memory.md): five times the low nibble; decisions D16 and D18 of the spec (logs 16, 17). -/
def Obligations.FontAddressesTheGlyph : Prop :=
  ∀ (x : RegNum) (s : State), exec (.font x) s =
    .next { s with i := BitVec.ofNat 16 (5 * (s.v[x].toNat % 16)), pc := s.pc + 2 }

/-- BCD (43_timer_memory.md) inside memory: the three digits at `I`, every other byte as before, nothing else changed
but `pc`; decisions D16 and D17 of the spec (log 16). -/
def Obligations.BcdStoresThreeDigits : Prop :=
  ∀ (x : RegNum) (s : State), s.i.toNat + 3 ≤ 4096 →
    ∃ t, exec (.bcd x) s = .next t ∧ t = { s with mem := t.mem, pc := s.pc + 2 } ∧
      (t.mem.read s.i.toNat).toNat = s.v[x].toNat / 100 ∧
      (t.mem.read (s.i.toNat + 1)).toNat = s.v[x].toNat / 10 % 10 ∧
      (t.mem.read (s.i.toNat + 2)).toNat = s.v[x].toNat % 10 ∧
      ∀ a, a < s.i.toNat ∨ s.i.toNat + 3 ≤ a → t.mem.read a = s.mem.read a

/-- STM (43_timer_memory.md) inside memory: registers 0 to X at `I` and up, every other byte as before, nothing else
changed but `pc`; decisions D16 and D17 of the spec (log 16). -/
def Obligations.StmStoresTheFirstRegisters : Prop :=
  ∀ (x : RegNum) (s : State), s.i.toNat + x.val + 1 ≤ 4096 →
    ∃ t, exec (.stm x) s = .next t ∧ t = { s with mem := t.mem, pc := s.pc + 2 } ∧
      (∀ r : RegNum, r ≤ x → t.mem.read (s.i.toNat + r.val) = s.v[r]) ∧
      ∀ a, a < s.i.toNat ∨ s.i.toNat + x.val + 1 ≤ a → t.mem.read a = s.mem.read a

/-- LDM (43_timer_memory.md) inside memory: registers 0 to X from `I` and up, the others as before, nothing else
changed but `pc`; decisions D16 and D17 of the spec (log 16). -/
def Obligations.LdmLoadsTheFirstRegisters : Prop :=
  ∀ (x : RegNum) (s : State), s.i.toNat + x.val + 1 ≤ 4096 →
    ∃ t, exec (.ldm x) s = .next t ∧ t = { s with v := t.v, pc := s.pc + 2 } ∧
      ∀ r : RegNum, t.v[r] = if r ≤ x then s.mem.read (s.i.toNat + r.val) else s.v[r]

/-- Storing and then loading registers 0 to X from the same base reproduces them, whatever the registers held in
between (43_timer_memory.md, LDM); decision D17 of the spec (log 16). -/
def Obligations.StoreThenLoadReproducesTheRegisters : Prop :=
  ∀ (x : RegNum) (s t u : State), exec (.stm x) s = .next t → u.mem = t.mem → u.i = t.i →
    ∃ w, exec (.ldm x) u = .next w ∧ ∀ r : RegNum, r ≤ x → w.v[r] = s.v[r]

/-- A transfer that does not end below 4096 is the fault MemoryAccessOutOfRange with its first address and length:
DRW with at least one row, BCD, STM and LDM (60_exceptions.md, MemoryAccessOutOfRange); that nothing is transferred
first and that DRW checks all its rows are decisions D10 and D11 of the spec (logs 12, 13). -/
def Obligations.TransfersOutOfRangeFault : Prop :=
  ∀ (x y : RegNum) (n : Nat) (s : State),
    (n ≥ 1 → s.i.toNat + n > 4096 → exec (.drw x y n) s = .fault (.memoryAccessOutOfRange s.i.toNat n)) ∧
    (s.i.toNat > 4093 → exec (.bcd x) s = .fault (.memoryAccessOutOfRange s.i.toNat 3)) ∧
    (s.i.toNat + x.val > 4095 →
      exec (.stm x) s = .fault (.memoryAccessOutOfRange s.i.toNat (x.val + 1)) ∧
      exec (.ldm x) s = .fault (.memoryAccessOutOfRange s.i.toNat (x.val + 1)))

/-- A byte stored by BCD, STM or Load program is seen by the very next fetch, at every `pc` that can be fetched from:
each of the two bytes of the word is the stored one where the store reaches it, else the old one, so also at both edges
of the stored range (20_memory.md, instruction-fetch coherence; decision D17 of the spec, log 16). -/
def Obligations.StoreIsSeenByTheNextFetch : Prop :=
  ∀ (s : State) (pc : Word), pc.toNat ≤ 0xFFE →
    (∀ x t, exec (.stm x) s = .next t → fetchWord { t with pc := pc } = .ok (wordOfBytes
      (byteAfterStore s.mem s.i.toNat (s.v.toList.take (x.val + 1)) pc.toNat)
      (byteAfterStore s.mem s.i.toNat (s.v.toList.take (x.val + 1)) (pc.toNat + 1)))) ∧
    (∀ x t digits, exec (.bcd x) s = .next t →
      digits = [s.v[x].toNat / 100, s.v[x].toNat / 10 % 10, s.v[x].toNat % 10].map (BitVec.ofNat 8) →
      fetchWord { t with pc := pc } = .ok (wordOfBytes
        (byteAfterStore s.mem s.i.toNat digits pc.toNat) (byteAfterStore s.mem s.i.toNat digits (pc.toNat + 1)))) ∧
    (∀ bytes t, perform (.load bytes) s = .done t → fetchWord { t with pc := pc } = .ok (wordOfBytes
      (byteAfterStore s.mem 0x200 bytes pc.toNat) (byteAfterStore s.mem 0x200 bytes (pc.toNat + 1))))

/-! ### The operations of the host -/

/-- State.reset and Construct (44_host_operations.md, Construct): every piece of the engine's state has its reset
value, from any state before. The zeros are decision D1 of the spec (log 8) and the font bytes D2 (log 9); that the
draw count goes on is the model's choice (log 3). -/
def Obligations.ConstructGivesTheResetValues : Prop :=
  ∀ s : State, ∃ t, perform .construct s = .done t ∧ t = { State.reset with draws := s.draws } ∧
    t.pc = 0x200 ∧ (∀ r : RegNum, t.v[r] = 0) ∧ t.i = 0 ∧ t.sp.val = 0 ∧ (∀ k : Fin 16, t.stack[k] = 0) ∧
    t.dt = 0 ∧ t.st = 0 ∧ (∀ x y, pixel t.display x y = false) ∧ (∀ k : Fin 16, t.key[k] = false) ∧
    t.blocking = false ∧
    (List.range 80).map t.mem.read =
      [0xF0, 0x90, 0x90, 0x90, 0xF0, 0x20, 0x60, 0x20, 0x20, 0x70, 0xF0, 0x10, 0xF0, 0x80, 0xF0] ++
      [0xF0, 0x10, 0xF0, 0x10, 0xF0, 0x90, 0x90, 0xF0, 0x10, 0x10, 0xF0, 0x80, 0xF0, 0x10, 0xF0] ++
      [0xF0, 0x80, 0xF0, 0x90, 0xF0, 0xF0, 0x10, 0x20, 0x40, 0x40, 0xF0, 0x90, 0xF0, 0x90, 0xF0] ++
      [0xF0, 0x90, 0xF0, 0x10, 0xF0, 0xF0, 0x90, 0xF0, 0x90, 0x90, 0xE0, 0x90, 0xE0, 0x90, 0xE0] ++
      [0xF0, 0x80, 0x80, 0x80, 0xF0, 0xE0, 0x90, 0x90, 0x90, 0xE0, 0xF0, 0x80, 0xF0, 0x80, 0xF0] ++
      [0xF0, 0x80, 0xF0, 0x80, 0x80] ∧
    ∀ a, a ≥ 0x050 → t.mem.read a = 0

/-- Load program (44_host_operations.md): the bytes at 0x200 and up, every other byte and all else as before; a
program longer than 3584 bytes is a fault. Failing, and resetting nothing, are decision D24 of the spec (log 21). -/
def Obligations.LoadCopiesTheProgramAndNothingElse : Prop :=
  ∀ (bytes : List Byte) (s : State),
    (bytes.length > 3584 → perform (.load bytes) s = .fault (.memoryAccessOutOfRange 0x200 bytes.length)) ∧
    (bytes.length ≤ 3584 → ∃ t, perform (.load bytes) s = .done t ∧ t = { s with mem := t.mem } ∧
      (∀ (k : Nat) (h : k < bytes.length), t.mem.read (0x200 + k) = bytes[k]) ∧
      ∀ a, a < 0x200 ∨ 0x200 + bytes.length ≤ a → t.mem.read a = s.mem.read a)

/-- 44_host_operations.md R110: both timers go down by one and stop at zero; nothing else changes. -/
def Obligations.TickDecrementsBothTimers : Prop :=
  ∀ s : State, ∃ t, perform .tick s = .done t ∧ t = { s with dt := t.dt, st := t.st } ∧
    t.dt.toNat = s.dt.toNat - 1 ∧ t.st.toNat = s.st.toNat - 1

/-- 44_host_operations.md R111. -/
def Obligations.KeyEdgeSetsOneFlag : Prop :=
  ∀ (k : Nat) (down : Bool) (s : State),
    (k > 15 → perform (.keyEdge k down) s = .fault (.invalidKeyIndex k)) ∧
    (∀ j : Fin 16, k = j.val → perform (.keyEdge k down) s = .done { s with key := s.key.set j down })

/-- Complete wait (44_host_operations.md): the key index is checked first; outside a wait it has no effect; in a wait
the register of bits 11:8 of the word at `pc` takes the key, the wait ends and `pc` advances; where `pc` admits no
fetch it is the fault of the fetch. Decisions D22, D23 and D31 of the spec (logs 13, 20). -/
def Obligations.CompleteWaitWritesTheTarget : Prop :=
  ∀ (k : Nat) (s : State),
    (k > 15 → perform (.completeWait k) s = .fault (.invalidKeyIndex k)) ∧
    (k ≤ 15 → s.blocking = false → perform (.completeWait k) s = .ignored) ∧
    (k ≤ 15 → s.blocking = true → s.pc.toNat ≤ 0xFFE →
      perform (.completeWait k) s = .done { s with
        v := s.v.set (fieldX (wordOfBytes (s.mem.read s.pc.toNat) (s.mem.read (s.pc.toNat + 1)))) (BitVec.ofNat 8 k)
        blocking := false
        pc := s.pc + 2 }) ∧
    (k ≤ 15 → s.blocking = true → s.pc.toNat ≥ 0xFFF →
      perform (.completeWait k) s = .fault (.memoryAccessOutOfRange s.pc.toNat 2))

/-- 44_host_operations.md R113: 32 rows of 64 bytes, each 0 or 1, top left first; no state changes. -/
def Obligations.ReadDisplayShowsThePixels : Prop :=
  ∀ s : State, perform .readDisplay s = .done s ∧ (readDisplay s).length = 32 ∧
    (∀ row ∈ readDisplay s, row.length = 64) ∧
    ∀ (x : Fin 64) (y : Fin 32), ((readDisplay s)[y.val]?.bind fun row => row[x.val]?) =
      some (if pixel s.display x y = true then 1 else 0)

/-- Each instruction and each operation ends in a fault exactly when the spec says, and in exactly that fault: one check
of the handler, after the blocking test, the fetch and the decode of Step, and the key index before the blocking test in
Complete wait (60_exceptions.md, faults and their order). After a fault the state is as before, so the same operation
faults again. Decisions D10 to D13, D20, D24 and D31 of the spec (logs 12, 13, 19, 21). -/
def Obligations.FaultsAreExactlyTheSpecsAndChangeNothing : Prop :=
  (∀ (i : Instr) (s : State) (f : Fault), exec i s = .fault f ↔ instrFault i s = some f) ∧
  (∀ (op : HostOp) (s : State) (f : Fault), perform op s = .fault f ↔ opFault op s = some f) ∧
  (∀ (op : HostOp) (s : State) (f : Fault), perform op s = .fault f →
    (perform op s).stateAfter s = s ∧ perform op ((perform op s).stateAfter s) = .fault f)

/-- 60_exceptions.md R131: every instruction but RET, CALL, DRW, BCD, STM, LDM, SKP and SKNP completes in every state,
and Construct, Tick, Read display and Step in a key wait never fault. -/
def Obligations.OnlyEightInstructionsCanFault : Prop :=
  (∀ (i : Instr) (s : State), (∀ nnn, i ≠ .call nnn) → i ≠ .ret → (∀ x y n, i ≠ .drw x y n) →
    (∀ x, i ≠ .bcd x ∧ i ≠ .stm x ∧ i ≠ .ldm x ∧ i ≠ .skp x ∧ i ≠ .sknp x) → ∃ t, exec i s = .next t) ∧
  (∀ s : State, (∃ t, perform .construct s = .done t) ∧ (∃ t, perform .tick s = .done t) ∧
    (∃ t, perform .readDisplay s = .done t) ∧ (s.blocking = true → perform .step s = .blocked))

/-! ### Invariants and whole-machine rules -/

/-- The invariant holds right after Construct, whatever the draw count. -/
def Obligations.InvariantHoldsAfterReset : Prop :=
  ∀ draws : Nat, Inv { State.reset with draws := draws }

/-- Every Step keeps the invariant: the canonical memory, the bound of `pc`, the bound of the stack entries, and the
fetchable `pc` of a key wait (10_state.md, program counter, with its inference). -/
def Obligations.EveryStepKeepsTheInvariant : Prop :=
  ∀ s t : State, Inv s → step s = .next t → Inv t

/-- Every operation of the host keeps the invariant, with any arguments (44_host_operations.md, operations). -/
def Obligations.EveryOperationKeepsTheInvariant : Prop :=
  ∀ (op : HostOp) (s t : State), Inv s → perform op s = .done t → Inv t

/-- In every reachable state `pc` is at most 0x1002, and a key wait can be completed with any of the sixteen keys: the
re-fetch does not fault (10_state.md and 44_host_operations.md, with their inferences). -/
def Obligations.ReachableStatesKeepPcInBounds : Prop :=
  ∀ s : State, Reachable s → s.pc.toNat ≤ 0x1002 ∧
    (s.blocking = true → ∀ k, k ≤ 15 → ∃ t, perform (.completeWait k) s = .done t ∧ t.blocking = false)

/-- A run of operations of which none ends in a fault keeps the invariant, from every state that satisfies it
(44_host_operations.md, operations; 60_exceptions.md, after a fault). -/
def Obligations.RunsWithoutAFaultKeepTheInvariant : Prop :=
  ∀ (ops : List HostOp) (s t : State), Inv s → runOps ops s = some t → Inv t

/-- The two run states (60_exceptions.md): only a Step that runs WAITK starts a key wait, and only Complete wait, or a
Construct, ends one. -/
def Obligations.RunStateChangesOnlyByWaitkAndCompletion : Prop :=
  ∀ (op : HostOp) (s t : State), perform op s = .done t →
    (s.blocking = false → t.blocking = true → op = .step ∧ ∃ x, fetchInstr s = .ok (.waitk x)) ∧
    (s.blocking = true → t.blocking = false → op = .construct ∨ ∃ k, op = .completeWait k)

/-- Frame of the general registers, over all instructions: a register that is neither the destination nor VF written
as a flag keeps its value (10_state.md, general registers and flag register; decision D29 of the spec, log 22). -/
def Obligations.InstructionsKeepOtherRegisters : Prop :=
  ∀ (i : Instr) (s t : State) (r : RegNum), exec i s = .next t → writesReg i r = false → t.v[r] = s.v[r]

/-- Frame of the special registers, over all instructions: `I` only by IDX, IDXO, ADDX, FONT; the stack only by CALL and
RET; `DT` only by WRDT; `ST` only by WRST; the key flags and `blocking` only by WAITK (10_state.md, system registers and
state arrays; decision D17 of the spec, log 16). The last clause, that the draw count moves only by RND, is about the
model's own field, the model's choice (log 1). -/
def Obligations.InstructionsKeepOtherSpecialRegisters : Prop :=
  ∀ (i : Instr) (s t : State), exec i s = .next t →
    (writesIndex i = false → t.i = s.i) ∧
    (writesStack i = false → t.stack = s.stack ∧ t.sp = s.sp) ∧
    ((∀ x, i ≠ .wrdt x) → t.dt = s.dt) ∧
    ((∀ x, i ≠ .wrst x) → t.st = s.st) ∧
    ((∀ x, i ≠ .waitk x) → t.key = s.key ∧ t.blocking = s.blocking) ∧
    ((∀ x nn, i ≠ .rnd x nn) → t.draws = s.draws)

/-- Frame of the display and the memory, over all instructions: the display changes only by CLS and DRW, the memory only
by BCD and STM, and those two change no byte outside the range they store to, `I` and up (10_state.md, display;
20_memory.md, accesses; decision D17 of the spec, log 16). -/
def Obligations.InstructionsKeepDisplayAndMemory : Prop :=
  ∀ (i : Instr) (s t : State), exec i s = .next t →
    (writesDisplay i = false → t.display = s.display) ∧
    (writesMemory i = false → ∀ a, t.mem.read a = s.mem.read a) ∧
    (∀ x, i = .bcd x → ∀ a, a < s.i.toNat ∨ s.i.toNat + 3 ≤ a → t.mem.read a = s.mem.read a) ∧
    (∀ x, i = .stm x → ∀ a, a < s.i.toNat ∨ s.i.toNat + (x.val + 1) ≤ a → t.mem.read a = s.mem.read a)
end

