-- ==== Sys2Proof/Laws/Decode.lean ====
section
/-! SUPPORT. The fields of a word as numbers, the fields of the word each format encodes (30_encoding.md R51, R54), and
the words of two bytes (20_memory.md R36). -/

namespace Sys2Proof

/-! ### Fields as numbers -/

section

variable (w : Word)

theorem fieldOp_eq : fieldOp w = w.toNat / 0x1000 := by
  have := w.isLt
  simp only [fieldOp, BitVec.extractLsb'_toNat, Nat.shiftRight_eq_div_pow]
  omega

theorem fieldX_val : (fieldX w).val = w.toNat / 0x100 % 0x10 := by
  show (w.extractLsb' 8 4).toNat = _
  simp only [BitVec.extractLsb'_toNat, Nat.shiftRight_eq_div_pow]

theorem fieldY_val : (fieldY w).val = w.toNat / 0x10 % 0x10 := by
  show (w.extractLsb' 4 4).toNat = _
  simp only [BitVec.extractLsb'_toNat, Nat.shiftRight_eq_div_pow]

theorem fieldN_eq : fieldN w = w.toNat % 0x10 := by
  simp only [fieldN, BitVec.extractLsb'_toNat, Nat.shiftRight_eq_div_pow]
  omega

theorem fieldNN_toNat : (fieldNN w).toNat = w.toNat % 0x100 := by
  simp only [fieldNN, BitVec.extractLsb'_toNat, Nat.shiftRight_eq_div_pow]
  omega

theorem fieldNNN_toNat : (fieldNNN w).toNat = w.toNat % 0x1000 := by
  simp only [fieldNNN, BitVec.extractLsb'_toNat, Nat.shiftRight_eq_div_pow]
  omega

theorem fieldOp_lt : fieldOp w < 16 := by
  have := w.isLt
  rw [fieldOp_eq]
  omega

theorem fieldN_lt : fieldN w < 16 := by
  rw [fieldN_eq]
  omega

/-! ### A word is the encoding of its own fields -/

theorem encodeA_fields : encodeA (fieldOp w) (fieldNNN w) = w := by
  have := w.isLt
  apply BitVec.eq_of_toNat_eq
  simp only [encodeA, fieldOp_eq, fieldNNN_toNat, BitVec.toNat_ofNat]
  omega

theorem encodeXI_fields : encodeXI (fieldOp w) (fieldX w) (fieldNN w) = w := by
  have := w.isLt
  apply BitVec.eq_of_toNat_eq
  simp only [encodeXI, fieldOp_eq, fieldX_val, fieldNN_toNat, BitVec.toNat_ofNat]
  omega

theorem encodeXY_fields : encodeXY (fieldOp w) (fieldX w) (fieldY w) (fieldN w) = w := by
  have := w.isLt
  apply BitVec.eq_of_toNat_eq
  simp only [encodeXY, fieldOp_eq, fieldX_val, fieldY_val, fieldN_eq, BitVec.toNat_ofNat]
  omega

end

/-! ### A word under the masks of the opcode table (R59) -/

/-- Masking with all of the high nibble and the low `k` bits keeps the high nibble and the low `k` bits. -/
theorem and_mask (w : Word) (k : Nat) (hk : k ≤ 12) (mask : Word)
    (hm : ∀ i : Fin 16, mask[i] = (decide (12 ≤ i.val) || decide (i.val < k))) :
    (w &&& mask).toNat = fieldOp w * 0x1000 + w.toNat % 2 ^ k := by
  have hlt : w.toNat % 2 ^ k < 2 ^ 12 :=
    Nat.lt_of_lt_of_le (Nat.mod_lt _ (Nat.two_pow_pos k)) (Nat.pow_le_pow_right (by decide) hk)
  have hshift : fieldOp w * 0x1000 + w.toNat % 2 ^ k = (w.toNat >>> 12) <<< 12 ||| w.toNat % 2 ^ k := by
    rw [← Nat.shiftLeft_add_eq_or_of_lt hlt, fieldOp_eq, Nat.shiftLeft_eq, Nat.shiftRight_eq_div_pow]
  rw [hshift]
  apply Nat.eq_of_testBit_eq
  intro i
  simp only [BitVec.toNat_and, Nat.testBit_and, Nat.testBit_or, Nat.testBit_shiftLeft, Nat.testBit_shiftRight,
    Nat.testBit_mod_two_pow]
  by_cases hi : i < 16
  · have h := hm ⟨i, hi⟩
    have h' : mask.toNat.testBit i = (decide (12 ≤ i) || decide (i < k)) := by
      rw [← h]
      simp [BitVec.getElem_eq_testBit_toNat]
    rw [h']
    by_cases h12 : 12 ≤ i
    · have : ¬ i < k := by omega
      simp [h12, this]
    · by_cases hik : i < k <;> simp [h12, hik]
  · have hw : w.toNat.testBit i = false :=
      Nat.testBit_lt_two_pow (Nat.lt_of_lt_of_le w.isLt (Nat.pow_le_pow_right (by decide) (by omega)))
    have : ¬ i < k := by omega
    have h12 : 12 + (i - 12) = i := by omega
    simp [hw, this, h12]

theorem and_F000 (w : Word) : (w &&& 0xF000).toNat = fieldOp w * 0x1000 := by
  rw [and_mask w 0 (by decide) _ (by decide)]
  omega

theorem and_F00F (w : Word) : (w &&& 0xF00F).toNat = fieldOp w * 0x1000 + fieldN w := by
  rw [fieldN_eq]
  exact and_mask w 4 (by decide) _ (by decide)

theorem and_F0FF (w : Word) : (w &&& 0xF0FF).toNat = fieldOp w * 0x1000 + (fieldNN w).toNat := by
  rw [fieldNN_toNat]
  exact and_mask w 8 (by decide) _ (by decide)

/-! ### The fields of an encoded word -/

section

variable {op n : Nat} (nnn : Addr) (x y : RegNum) (nn : Byte)

theorem encodeA_toNat (h : op < 16) : (encodeA op nnn).toNat = op * 0x1000 + nnn.toNat := by
  have := nnn.isLt
  simp only [encodeA, BitVec.toNat_ofNat]
  omega

theorem encodeXI_toNat (h : op < 16) : (encodeXI op x nn).toNat = op * 0x1000 + x.val * 0x100 + nn.toNat := by
  have := nn.isLt
  have := x.isLt
  simp only [encodeXI, BitVec.toNat_ofNat]
  omega

theorem encodeXY_toNat (h : op < 16) (hn : n < 16) : (encodeXY op x y n).toNat = op * 0x1000 + x.val * 0x100 + y.val * 0x10 + n := by
  have := x.isLt
  have := y.isLt
  simp only [encodeXY, BitVec.toNat_ofNat]
  omega

theorem fieldOp_encodeA (h : op < 16) : fieldOp (encodeA op nnn) = op := by
  have := nnn.isLt
  rw [fieldOp_eq, encodeA_toNat nnn h]
  omega

theorem fieldNNN_encodeA (h : op < 16) : fieldNNN (encodeA op nnn) = nnn := by
  have := nnn.isLt
  apply BitVec.eq_of_toNat_eq
  rw [fieldNNN_toNat, encodeA_toNat nnn h]
  omega

theorem fieldOp_encodeXI (h : op < 16) : fieldOp (encodeXI op x nn) = op := by
  have := nn.isLt
  have := x.isLt
  rw [fieldOp_eq, encodeXI_toNat x nn h]
  omega

theorem fieldX_encodeXI (h : op < 16) : fieldX (encodeXI op x nn) = x := by
  have := nn.isLt
  have := x.isLt
  apply Fin.ext
  rw [fieldX_val, encodeXI_toNat x nn h]
  omega

theorem fieldNN_encodeXI (h : op < 16) : fieldNN (encodeXI op x nn) = nn := by
  have := nn.isLt
  apply BitVec.eq_of_toNat_eq
  rw [fieldNN_toNat, encodeXI_toNat x nn h]
  omega

theorem fieldOp_encodeXY (h : op < 16) (hn : n < 16) : fieldOp (encodeXY op x y n) = op := by
  have := x.isLt
  have := y.isLt
  rw [fieldOp_eq, encodeXY_toNat x y h hn]
  omega

theorem fieldX_encodeXY (h : op < 16) (hn : n < 16) : fieldX (encodeXY op x y n) = x := by
  have := x.isLt
  have := y.isLt
  apply Fin.ext
  rw [fieldX_val, encodeXY_toNat x y h hn]
  omega

theorem fieldY_encodeXY (h : op < 16) (hn : n < 16) : fieldY (encodeXY op x y n) = y := by
  have := y.isLt
  apply Fin.ext
  rw [fieldY_val, encodeXY_toNat x y h hn]
  omega

theorem fieldN_encodeXY (h : op < 16) (hn : n < 16) : fieldN (encodeXY op x y n) = n := by
  rw [fieldN_eq, encodeXY_toNat x y h hn]
  omega

end

/-! ### Words of two bytes -/

theorem wordOfBytes_toNat (hi lo : Byte) : (wordOfBytes hi lo).toNat = hi.toNat * 256 + lo.toNat := by
  have := hi.isLt
  have := lo.isLt
  simp only [wordOfBytes, BitVec.toNat_ofNat]
  omega

theorem wordOfBytes_high (hi lo : Byte) : (wordOfBytes hi lo).extractLsb' 8 8 = hi := by
  have := hi.isLt
  have := lo.isLt
  apply BitVec.eq_of_toNat_eq
  simp only [BitVec.extractLsb'_toNat, Nat.shiftRight_eq_div_pow, wordOfBytes_toNat]
  omega

theorem wordOfBytes_low (hi lo : Byte) : (wordOfBytes hi lo).extractLsb' 0 8 = lo := by
  have := lo.isLt
  apply BitVec.eq_of_toNat_eq
  simp only [BitVec.extractLsb'_toNat, Nat.shiftRight_eq_div_pow, wordOfBytes_toNat]
  omega

/-- The two bytes of a word give the word back. -/
theorem wordOfBytes_wordBytes (w : Word) : wordOfBytes (w.extractLsb' 8 8) (w.extractLsb' 0 8) = w := by
  have := w.isLt
  apply BitVec.eq_of_toNat_eq
  simp only [wordOfBytes_toNat, BitVec.extractLsb'_toNat, Nat.shiftRight_eq_div_pow]
  omega

/-- Decoding the two bytes of a word decodes the word and takes nothing more. -/
theorem decode_wordBytes (w : Word) (rest : List Byte) :
    decode (wordBytes w ++ rest) = match decodeWord w with
      | .ok i => .ok (i, rest)
      | .error e => .error e := by
  cases h : decodeWord w <;> simp [wordBytes, decode, wordOfBytes_wordBytes, h]

end Sys2Proof
end

