-- ==== Sys2Proof/Laws/Display.lean ====
section
/-! SUPPORT. The laws of the display: reading a pixel after one is set, and what drawing a pixel, a row and a sprite
does. -/

namespace Sys2Proof.Machine

theorem pixel_setPixel (d : Display) (x x' : Fin 64) (y y' : Fin 32) (b : Bool) :
    pixel (setPixel d x y b) x' y' = if x' = x ∧ y' = y then b else pixel d x' y' := by
  simp only [pixel, setPixel, Fin.getElem_fin, Vector.getElem_set, Fin.ext_iff]
  by_cases hy : y'.val = y.val
  · by_cases hx : x'.val = x.val
    · simp [hx, hy]
    · simp [hx, hy, Ne.symm hx]
  · simp [hy, Ne.symm hy]

/-- Two displays with the same pixels are equal. -/
theorem display_ext {a b : Display} (h : ∀ x y, pixel a x y = pixel b x y) : a = b :=
  Vector.ext fun i hi => Vector.ext fun j hj => h ⟨j, hj⟩ ⟨i, hi⟩

@[simp] theorem pixel_clearDisplay (x : Fin 64) (y : Fin 32) : pixel clearDisplay x y = false := by
  simp [pixel, clearDisplay]

/-- Where a sprite pixel falls: on the grid modulo its size when the sprite wraps, else in place or nowhere (R93). -/
theorem place_eq_some {wrap : Bool} {x0 y0 c r : Nat} {px : Fin 64} {py : Fin 32} :
    place wrap x0 y0 c r = some (px, py) ↔
      if wrap then (x0 + c) % 64 = px.val ∧ (y0 + r) % 32 = py.val else x0 + c = px.val ∧ y0 + r = py.val := by
  have hx := px.isLt
  have hy := py.isLt
  rw [place]
  split
  · simp only [Option.some.injEq, Prod.mk.injEq, Fin.ext_iff]
  · split
    · simp only [Option.some.injEq, Prod.mk.injEq, Fin.ext_iff]
    · simp only [reduceCtorEq, false_iff]
      omega

/-- Drawing one sprite bit XORs it into the pixel it falls on and changes no other pixel. -/
theorem pixel_drawPixel (wrap : Bool) (x0 y0 c r : Nat) (bit : Bool) (d : Drawing) (x : Fin 64) (y : Fin 32) :
    pixel (drawPixel wrap x0 y0 c r bit d).display x y =
      if place wrap x0 y0 c r = some (x, y) then xor (pixel d.display x y) bit else pixel d.display x y := by
  rw [drawPixel]
  split
  · simp_all
  · rename_i px py h
    simp only [pixel_setPixel, h, Option.some.injEq, Prod.mk.injEq]
    by_cases hx : x = px
    · by_cases hy : y = py
      · simp [hx, hy]
      · simp [hy, Ne.symm hy]
    · simp [hx, Ne.symm hx]

/-- Drawing one sprite bit reports a collision exactly when the bit is 1 and falls on a pixel that is 1. -/
theorem collision_drawPixel (wrap : Bool) (x0 y0 c r : Nat) (bit : Bool) (d : Drawing) :
    (drawPixel wrap x0 y0 c r bit d).collision = true ↔ d.collision = true ∨
      (bit = true ∧ ∃ x y, place wrap x0 y0 c r = some (x, y) ∧ pixel d.display x y = true) := by
  rw [drawPixel]
  split
  · simp_all
  · rename_i px py h
    simp only [Bool.or_eq_true, Bool.and_eq_true, h, Option.some.injEq, Prod.mk.injEq]
    constructor
    · rintro (h | ⟨h, hb⟩)
      · exact .inl h
      · exact .inr ⟨hb, px, py, ⟨rfl, rfl⟩, h⟩
    · rintro (h | ⟨hb, x, y, ⟨rfl, rfl⟩, h⟩)
      · exact .inl h
      · exact .inr ⟨h, hb⟩

/-! ### Rows and sprites

A drawing operation XORs a set of pixels `cov` into the display and reports a collision exactly when one of them was 1.
Operations on disjoint sets, one after another, are again such an operation, on the union. -/

/-- What a drawing operation does, by the set of pixels it flips. -/
structure Flips (f : Drawing → Drawing) (cov : Fin 64 → Fin 32 → Bool) : Prop where
  pixel_eq : ∀ d x y, pixel (f d).display x y = xor (pixel d.display x y) (cov x y)
  collision_iff : ∀ d, (f d).collision = true ↔
    d.collision = true ∨ ∃ x y, cov x y = true ∧ pixel d.display x y = true

theorem Flips.foldl {f : Nat → Drawing → Drawing} {cov : Nat → Fin 64 → Fin 32 → Bool} (l : List Nat)
    (hf : ∀ a ∈ l, Flips (f a) (cov a))
    (hd : l.Pairwise fun a b => ∀ x y, cov a x y = true → cov b x y = false) :
    Flips (fun d => l.foldl (fun d a => f a d) d) (fun x y => l.any fun a => cov a x y) := by
  induction l with
  | nil => constructor <;> simp
  | cons a l ih =>
    have ha := hf a (by simp)
    have hl := ih (fun b hb => hf b (by simp [hb])) hd.of_cons
    have hd := (List.pairwise_cons.1 hd).1
    constructor
    · intro d x y
      simp only [List.foldl_cons, List.any_cons, hl.pixel_eq, ha.pixel_eq]
      cases hc : cov a x y
      · simp
      · have : (l.any fun a => cov a x y) = false := by
          simpa using fun b hb => hd _ hb x y hc
        simp [this]
    · intro d
      simp only [List.foldl_cons, List.any_cons, hl.collision_iff, ha.collision_iff, ha.pixel_eq, Bool.or_eq_true]
      constructor
      · rintro ((h | ⟨x, y, hc, hp⟩) | ⟨x, y, hc, hp⟩)
        · exact .inl h
        · exact .inr ⟨x, y, .inl hc, hp⟩
        · refine .inr ⟨x, y, .inr hc, ?_⟩
          obtain ⟨b, hb, hcb⟩ := List.any_eq_true.1 hc
          cases hca : cov a x y
          · simpa [hca] using hp
          · simp [hd _ hb x y hca] at hcb
      · rintro (h | ⟨x, y, hc | hc, hp⟩)
        · exact .inl (.inl h)
        · exact .inl (.inr ⟨x, y, hc, hp⟩)
        · refine .inr ⟨x, y, hc, ?_⟩
          obtain ⟨b, hb, hcb⟩ := List.any_eq_true.1 hc
          cases hca : cov a x y
          · simpa [hca] using hp
          · simp [hd _ hb x y hca] at hcb

/-- The pixel that column `c` of row `r` flips, if the sprite bit is 1 and the pixel is on the grid. -/
def bitCovers (wrap : Bool) (x0 y0 r : Nat) (row : Byte) (c : Nat) (x : Fin 64) (y : Fin 32) : Bool :=
  spriteBit row c && place wrap x0 y0 c r == some (x, y)

theorem flips_drawPixel (wrap : Bool) (x0 y0 r : Nat) (row : Byte) (c : Nat) :
    Flips (drawPixel wrap x0 y0 c r (spriteBit row c)) (bitCovers wrap x0 y0 r row c) where
  pixel_eq d x y := by
    rw [pixel_drawPixel, bitCovers]
    by_cases h : place wrap x0 y0 c r = some (x, y)
    · simp [h]
    · simp [h, beq_eq_false_iff_ne.2 h]
  collision_iff d := by
    rw [collision_drawPixel]
    simp [bitCovers, and_assoc]

/-- The pixels that row `r` flips. -/
def rowCovers (wrap : Bool) (x0 y0 r : Nat) (row : Byte) (x : Fin 64) (y : Fin 32) : Bool :=
  (List.range 8).any fun c => bitCovers wrap x0 y0 r row c x y

theorem flips_drawRow (wrap : Bool) (x0 y0 r : Nat) (row : Byte) :
    Flips (drawRow wrap x0 y0 r row) (rowCovers wrap x0 y0 r row) := by
  refine Flips.foldl (f := fun c => drawPixel wrap x0 y0 c r (spriteBit row c)) (List.range 8)
    (fun c _ => flips_drawPixel wrap x0 y0 r row c) ?_
  refine List.Pairwise.imp_of_mem (R := (· < ·)) ?_ List.pairwise_lt_range
  intro a b ha hb hab x y h
  simp only [List.mem_range] at ha hb
  rw [bitCovers, Bool.and_eq_true, beq_iff_eq, place_eq_some] at h
  rw [bitCovers, Bool.and_eq_false_iff]
  refine .inr (beq_eq_false_iff_ne.2 fun h' => ?_)
  rw [place_eq_some] at h'
  cases wrap <;> simp at h h' <;> omega

/-- The pixels that a sprite of `n` rows flips. -/
def spriteCovers (m : Memory) (base n x0 y0 : Nat) (x : Fin 64) (y : Fin 32) : Bool :=
  (List.range n).any fun r => rowCovers (spriteWraps x0 y0) x0 y0 r (m.read (base + r)) x y

theorem spriteCovers_iff {m : Memory} {base n x0 y0 : Nat} {x : Fin 64} {y : Fin 32} :
    spriteCovers m base n x0 y0 x y = true ↔ ∃ r, r < n ∧ ∃ c, c < 8 ∧ spriteBit (m.read (base + r)) c = true ∧
      place (spriteWraps x0 y0) x0 y0 c r = some (x, y) := by
  simp [spriteCovers, rowCovers, bitCovers]

/-- No two rows of a sprite of at most 32 rows meet, so a sprite flips each of its pixels once. -/
theorem flips_drawSprite (m : Memory) (base n x0 y0 : Nat) (hn : n ≤ 32) :
    Flips (fun d => (List.range n).foldl (fun d r => drawRow (spriteWraps x0 y0) x0 y0 r (m.read (base + r)) d) d)
      (spriteCovers m base n x0 y0) := by
  refine Flips.foldl (f := fun r => drawRow (spriteWraps x0 y0) x0 y0 r (m.read (base + r))) (List.range n)
    (fun r _ => flips_drawRow _ x0 y0 r _) ?_
  refine List.Pairwise.imp_of_mem (R := (· < ·)) ?_ List.pairwise_lt_range
  intro a b ha hb hab x y h
  simp only [List.mem_range] at ha hb
  simp only [rowCovers, bitCovers, List.any_eq_true, Bool.and_eq_true, beq_iff_eq, place_eq_some] at h
  obtain ⟨c, -, -, h⟩ := h
  simp only [rowCovers, bitCovers, List.any_eq_false, Bool.and_eq_true, beq_iff_eq, place_eq_some, not_and]
  intro c' _ _ h'
  cases hw : spriteWraps x0 y0 <;> simp [hw] at h h' <;> omega

end Sys2Proof.Machine
end

