-- ==== Sys2Proof/Laws/Memory.lean ====
section
/-! SUPPORT. The laws of the memory: what a read gives after a write, and that every operation keeps the canonical
form. -/

namespace Sys2Proof.Machine

@[simp] theorem read_nil (a : Nat) : Memory.read [] a = resetByte a := rfl

theorem read_cons (k a : Nat) (b : Byte) (m : Memory) :
    Memory.read ((k, b) :: m) a = if k = a then b else Memory.read m a := rfl

theorem read_putCell (m : Memory) (a c : Nat) (b : Byte) (h : ∀ p ∈ m, p.1 ≠ a) :
    (Memory.putCell m a b).read c = if c = a then b else Memory.read m c := by
  induction m with
  | nil => simp only [Memory.putCell, read_cons, eq_comm]
  | cons p m ih =>
    obtain ⟨k, d⟩ := p
    have hk : k ≠ a := h (k, d) (by simp)
    have ih := ih fun p hp => h p (by simp [hp])
    simp only [Memory.putCell]
    split
    · simp only [read_cons, eq_comm]
    · simp only [read_cons, ih]
      by_cases hc : k = c
      · have hca : c ≠ a := hc ▸ hk
        simp [hc, hca]
      · simp [hc]

theorem read_filter (m : Memory) (a c : Nat) :
    Memory.read (m.filter fun p => p.1 != a) c = if c = a then resetByte a else Memory.read m c := by
  induction m with
  | nil => by_cases h : c = a <;> simp [h]
  | cons p m ih =>
    obtain ⟨k, d⟩ := p
    by_cases hk : k = a
    · simp only [hk, bne_self_eq_false, Bool.false_eq_true, not_false_eq_true, List.filter_cons_of_neg, ih, read_cons]
      by_cases hc : c = a
      · simp [hc]
      · simp [hc, Ne.symm hc]
    · simp only [bne_iff_ne, ne_eq, hk, not_false_eq_true, List.filter_cons_of_pos, ih, read_cons]
      by_cases hc : k = c
      · have hca : c ≠ a := hc ▸ hk
        simp [hc, hca]
      · simp [hc]

/-- A read after a write gives the byte written at that address and leaves every other address alone (R41, R42). -/
theorem read_write (m : Memory) (a c : Nat) (b : Byte) :
    (m.write a b).read c = if c = a then b else m.read c := by
  simp only [Memory.write]
  split
  · rename_i h
    rw [read_filter]
    split <;> simp_all
  · rw [read_putCell _ _ _ _ (by simp), read_filter]
    split <;> simp_all

/-- A read after a transfer of consecutive bytes: inside their range the byte stored there, else what was there. -/
theorem read_storeBytes (m : Memory) (base a : Nat) (bytes : List Byte) :
    (m.storeBytes base bytes).read a = if a < base then m.read a else bytes.getD (a - base) (m.read a) := by
  induction bytes generalizing m base with
  | nil => simp [Memory.storeBytes]
  | cons b bs ih =>
    rw [Memory.storeBytes, ih, read_write]
    rcases Nat.lt_trichotomy a base with h | h | h
    · simp [h, Nat.lt_succ_of_lt h, Nat.ne_of_lt h]
    · simp [h]
    · obtain ⟨k, rfl⟩ := Nat.exists_eq_add_of_lt h
      have h1 : ¬ base + k + 1 < base + 1 := by omega
      have h2 : ¬ base + k + 1 < base := by omega
      have h3 : base + k + 1 - base = k + 1 := by omega
      have h4 : base + k + 1 - (base + 1) = k := by omega
      have h5 : base + k + 1 ≠ base := by omega
      simp [h1, h2, h3, h4, h5]

theorem read_storeBytes_outside (m : Memory) (base a : Nat) (bytes : List Byte)
    (h : a < base ∨ base + bytes.length ≤ a) : (m.storeBytes base bytes).read a = m.read a := by
  rw [read_storeBytes]
  split
  · rfl
  · rw [List.getD_eq_getElem?_getD, List.getElem?_eq_none (by omega), Option.getD_none]

/-! ### The canonical form -/

theorem wfFrom_mono {lo lo' : Nat} {m : Memory} (h : lo' ≤ lo) (hm : Memory.wfFrom lo m = true) :
    Memory.wfFrom lo' m = true := by
  cases m with
  | nil => rfl
  | cons p m =>
    simp only [Memory.wfFrom, Bool.and_eq_true, decide_eq_true_eq] at hm ⊢
    exact ⟨⟨⟨by omega, hm.1.1.2⟩, hm.1.2⟩, hm.2⟩

theorem wfFrom_putCell {lo a : Nat} {b : Byte} {m : Memory} (hm : Memory.wfFrom lo m = true) (hlo : lo ≤ a)
    (ha : a < Config.memSize) (hb : b ≠ resetByte a) (hne : ∀ p ∈ m, p.1 ≠ a) :
    Memory.wfFrom lo (Memory.putCell m a b) = true := by
  induction m generalizing lo with
  | nil => simp_all [Memory.putCell, Memory.wfFrom]
  | cons p m ih =>
    obtain ⟨k, d⟩ := p
    have hk : k ≠ a := hne (k, d) (by simp)
    simp only [Memory.wfFrom, Bool.and_eq_true, decide_eq_true_eq] at hm
    obtain ⟨⟨⟨h1, h2⟩, h3⟩, h4⟩ := hm
    simp only [Memory.putCell]
    split
    · simp only [Memory.wfFrom, Bool.and_eq_true, decide_eq_true_eq]
      exact ⟨⟨⟨hlo, ha⟩, hb⟩, ⟨⟨⟨by omega, h2⟩, h3⟩, h4⟩⟩
    · simp only [Memory.wfFrom, Bool.and_eq_true, decide_eq_true_eq]
      exact ⟨⟨⟨h1, h2⟩, h3⟩, ih h4 (by omega) fun p hp => hne p (by simp [hp])⟩

theorem wfFrom_filter {lo a : Nat} {m : Memory} (hm : Memory.wfFrom lo m = true) :
    Memory.wfFrom lo (m.filter fun p => p.1 != a) = true := by
  induction m generalizing lo with
  | nil => rfl
  | cons p m ih =>
    obtain ⟨k, d⟩ := p
    simp only [Memory.wfFrom, Bool.and_eq_true, decide_eq_true_eq] at hm
    obtain ⟨⟨⟨h1, h2⟩, h3⟩, h4⟩ := hm
    rw [List.filter_cons]
    split
    · simp only [Memory.wfFrom, Bool.and_eq_true, decide_eq_true_eq]
      exact ⟨⟨⟨h1, h2⟩, h3⟩, ih h4⟩
    · exact wfFrom_mono (by omega) (ih h4)

/-- A write inside the memory keeps the canonical form. -/
theorem wf_write {a : Nat} {b : Byte} {m : Memory} (hm : m.wf = true) (ha : a < Config.memSize) :
    (m.write a b).wf = true := by
  simp only [Memory.write, Memory.wf]
  split
  · exact wfFrom_filter hm
  · rename_i hb
    exact wfFrom_putCell (wfFrom_filter hm) (Nat.zero_le a) ha hb (by simp)

/-- A transfer inside the memory keeps the canonical form. -/
theorem wf_storeBytes {base : Nat} {bytes : List Byte} {m : Memory} (hm : m.wf = true)
    (h : bytes = [] ∨ base + bytes.length ≤ Config.memSize) : (m.storeBytes base bytes).wf = true := by
  induction bytes generalizing m base with
  | nil => exact hm
  | cons b bs ih =>
    have h : base + (bs.length + 1) ≤ Config.memSize := by simpa using h
    exact ih (wf_write hm (by omega)) (.inr (by omega))

theorem wfFrom_read_below {lo a : Nat} {m : Memory} (hm : Memory.wfFrom lo m = true) (ha : a < lo) :
    Memory.read m a = resetByte a := by
  induction m generalizing lo with
  | nil => rfl
  | cons p m ih =>
    obtain ⟨k, d⟩ := p
    simp only [Memory.wfFrom, Bool.and_eq_true, decide_eq_true_eq] at hm
    obtain ⟨⟨⟨h1, -⟩, -⟩, h4⟩ := hm
    rw [read_cons, if_neg (by omega), ih h4 (by omega)]

/-- Two memories in canonical form that read the same everywhere are the same data. -/
theorem wfFrom_ext {lo lo' : Nat} {m m' : Memory} (hm : Memory.wfFrom lo m = true) (hm' : Memory.wfFrom lo' m' = true)
    (h : ∀ a, Memory.read m a = Memory.read m' a) : m = m' := by
  induction m generalizing lo lo' m' with
  | nil =>
    cases m' with
    | nil => rfl
    | cons p m' =>
      obtain ⟨k, d⟩ := p
      simp only [Memory.wfFrom, Bool.and_eq_true, decide_eq_true_eq] at hm'
      have := h k
      simp only [read_nil, read_cons, if_true] at this
      exact absurd this.symm hm'.1.2
  | cons p m ih =>
    obtain ⟨k, d⟩ := p
    simp only [Memory.wfFrom, Bool.and_eq_true, decide_eq_true_eq] at hm
    obtain ⟨⟨-, hd⟩, hm⟩ := hm
    cases m' with
    | nil =>
      have := h k
      simp only [read_nil, read_cons, if_true] at this
      exact absurd this hd
    | cons p' m' =>
      obtain ⟨k', d'⟩ := p'
      simp only [Memory.wfFrom, Bool.and_eq_true, decide_eq_true_eq] at hm'
      obtain ⟨⟨-, hd'⟩, hm'⟩ := hm'
      have hkk : k = k' := by
        rcases Nat.lt_trichotomy k k' with hlt | heq | hgt
        · have := h k
          rw [read_cons, if_pos rfl, read_cons, if_neg (by omega), wfFrom_read_below hm' (by omega)] at this
          exact absurd this hd
        · exact heq
        · have := h k'
          rw [read_cons, if_neg (by omega), wfFrom_read_below hm (by omega), read_cons, if_pos rfl] at this
          exact absurd this.symm hd'
      subst hkk
      have hdd : d = d' := by have := h k; simpa only [read_cons, if_true] using this
      subst hdd
      congr 1
      refine ih hm hm' fun a => ?_
      rcases Nat.lt_trichotomy k a with hlt | rfl | hgt
      · have := h a
        rwa [read_cons, if_neg (by omega), read_cons, if_neg (by omega)] at this
      · rw [wfFrom_read_below hm (by omega), wfFrom_read_below hm' (by omega)]
      · rw [wfFrom_read_below hm (by omega), wfFrom_read_below hm' (by omega)]

theorem wf_ext {m m' : Memory} (hm : m.wf = true) (hm' : m'.wf = true) (h : ∀ a, m.read a = m'.read a) : m = m' :=
  wfFrom_ext hm hm' h

end Sys2Proof.Machine
end

