-- ==== Sys2Proof/Laws/State.lean ====
section
/-! SUPPORT. For each update of the state, what each field is after it. -/

namespace Sys2Proof.Machine

/-! ### writeV -/

section

variable (x : RegNum) (b : Byte) (s : State)

@[simp] theorem writeV_v : (writeV x b s).v = s.v.set x b := rfl
@[simp] theorem writeV_i : (writeV x b s).i = s.i := rfl
@[simp] theorem writeV_pc : (writeV x b s).pc = s.pc := rfl
@[simp] theorem writeV_stack : (writeV x b s).stack = s.stack := rfl
@[simp] theorem writeV_sp : (writeV x b s).sp = s.sp := rfl
@[simp] theorem writeV_dt : (writeV x b s).dt = s.dt := rfl
@[simp] theorem writeV_st : (writeV x b s).st = s.st := rfl
@[simp] theorem writeV_display : (writeV x b s).display = s.display := rfl
@[simp] theorem writeV_key : (writeV x b s).key = s.key := rfl
@[simp] theorem writeV_blocking : (writeV x b s).blocking = s.blocking := rfl
@[simp] theorem writeV_mem : (writeV x b s).mem = s.mem := rfl
@[simp] theorem writeV_draws : (writeV x b s).draws = s.draws := rfl

end

/-! ### writeResultFlag -/

section

variable (x : RegNum) (r flag : Byte) (s : State)

@[simp] theorem writeResultFlag_v : (writeResultFlag x r flag s).v = (s.v.set x r).set vf flag := rfl
@[simp] theorem writeResultFlag_i : (writeResultFlag x r flag s).i = s.i := rfl
@[simp] theorem writeResultFlag_pc : (writeResultFlag x r flag s).pc = s.pc := rfl
@[simp] theorem writeResultFlag_stack : (writeResultFlag x r flag s).stack = s.stack := rfl
@[simp] theorem writeResultFlag_sp : (writeResultFlag x r flag s).sp = s.sp := rfl
@[simp] theorem writeResultFlag_dt : (writeResultFlag x r flag s).dt = s.dt := rfl
@[simp] theorem writeResultFlag_st : (writeResultFlag x r flag s).st = s.st := rfl
@[simp] theorem writeResultFlag_display : (writeResultFlag x r flag s).display = s.display := rfl
@[simp] theorem writeResultFlag_key : (writeResultFlag x r flag s).key = s.key := rfl
@[simp] theorem writeResultFlag_blocking : (writeResultFlag x r flag s).blocking = s.blocking := rfl
@[simp] theorem writeResultFlag_mem : (writeResultFlag x r flag s).mem = s.mem := rfl
@[simp] theorem writeResultFlag_draws : (writeResultFlag x r flag s).draws = s.draws := rfl

end

/-! ### loadRegs -/

section

variable (x : RegNum) (base : Nat) (s : State)

@[simp] theorem loadRegs_v : (loadRegs x base s).v = Vector.ofFn fun j : Fin 16 => if j.val ≤ x.val then s.mem.read (base + j.val) else s.v[j] := rfl
@[simp] theorem loadRegs_i : (loadRegs x base s).i = s.i := rfl
@[simp] theorem loadRegs_pc : (loadRegs x base s).pc = s.pc := rfl
@[simp] theorem loadRegs_stack : (loadRegs x base s).stack = s.stack := rfl
@[simp] theorem loadRegs_sp : (loadRegs x base s).sp = s.sp := rfl
@[simp] theorem loadRegs_dt : (loadRegs x base s).dt = s.dt := rfl
@[simp] theorem loadRegs_st : (loadRegs x base s).st = s.st := rfl
@[simp] theorem loadRegs_display : (loadRegs x base s).display = s.display := rfl
@[simp] theorem loadRegs_key : (loadRegs x base s).key = s.key := rfl
@[simp] theorem loadRegs_blocking : (loadRegs x base s).blocking = s.blocking := rfl
@[simp] theorem loadRegs_mem : (loadRegs x base s).mem = s.mem := rfl
@[simp] theorem loadRegs_draws : (loadRegs x base s).draws = s.draws := rfl

end

/-! ### advance -/

section

variable (s : State)

@[simp] theorem advance_v : (advance s).v = s.v := rfl
@[simp] theorem advance_i : (advance s).i = s.i := rfl
@[simp] theorem advance_pc : (advance s).pc = s.pc + 2 := rfl
@[simp] theorem advance_stack : (advance s).stack = s.stack := rfl
@[simp] theorem advance_sp : (advance s).sp = s.sp := rfl
@[simp] theorem advance_dt : (advance s).dt = s.dt := rfl
@[simp] theorem advance_st : (advance s).st = s.st := rfl
@[simp] theorem advance_display : (advance s).display = s.display := rfl
@[simp] theorem advance_key : (advance s).key = s.key := rfl
@[simp] theorem advance_blocking : (advance s).blocking = s.blocking := rfl
@[simp] theorem advance_mem : (advance s).mem = s.mem := rfl
@[simp] theorem advance_draws : (advance s).draws = s.draws := rfl

end

/-! ### skipIf -/

section

variable (c : Bool) (s : State)

@[simp] theorem skipIf_v : (skipIf c s).v = s.v := rfl
@[simp] theorem skipIf_i : (skipIf c s).i = s.i := rfl
@[simp] theorem skipIf_pc : (skipIf c s).pc = s.pc + if c then 4 else 2 := rfl
@[simp] theorem skipIf_stack : (skipIf c s).stack = s.stack := rfl
@[simp] theorem skipIf_sp : (skipIf c s).sp = s.sp := rfl
@[simp] theorem skipIf_dt : (skipIf c s).dt = s.dt := rfl
@[simp] theorem skipIf_st : (skipIf c s).st = s.st := rfl
@[simp] theorem skipIf_display : (skipIf c s).display = s.display := rfl
@[simp] theorem skipIf_key : (skipIf c s).key = s.key := rfl
@[simp] theorem skipIf_blocking : (skipIf c s).blocking = s.blocking := rfl
@[simp] theorem skipIf_mem : (skipIf c s).mem = s.mem := rfl
@[simp] theorem skipIf_draws : (skipIf c s).draws = s.draws := rfl

end

/-! ### storeAt -/

section

variable (base : Nat) (bytes : List Byte) (s : State)

@[simp] theorem storeAt_v : (storeAt base bytes s).v = s.v := rfl
@[simp] theorem storeAt_i : (storeAt base bytes s).i = s.i := rfl
@[simp] theorem storeAt_pc : (storeAt base bytes s).pc = s.pc := rfl
@[simp] theorem storeAt_stack : (storeAt base bytes s).stack = s.stack := rfl
@[simp] theorem storeAt_sp : (storeAt base bytes s).sp = s.sp := rfl
@[simp] theorem storeAt_dt : (storeAt base bytes s).dt = s.dt := rfl
@[simp] theorem storeAt_st : (storeAt base bytes s).st = s.st := rfl
@[simp] theorem storeAt_display : (storeAt base bytes s).display = s.display := rfl
@[simp] theorem storeAt_key : (storeAt base bytes s).key = s.key := rfl
@[simp] theorem storeAt_blocking : (storeAt base bytes s).blocking = s.blocking := rfl
@[simp] theorem storeAt_mem : (storeAt base bytes s).mem = s.mem.storeBytes base bytes := rfl
@[simp] theorem storeAt_draws : (storeAt base bytes s).draws = s.draws := rfl

end

/-! ### tick -/

section

variable (s : State)

@[simp] theorem tick_v : (tick s).v = s.v := rfl
@[simp] theorem tick_i : (tick s).i = s.i := rfl
@[simp] theorem tick_pc : (tick s).pc = s.pc := rfl
@[simp] theorem tick_stack : (tick s).stack = s.stack := rfl
@[simp] theorem tick_sp : (tick s).sp = s.sp := rfl
@[simp] theorem tick_dt : (tick s).dt = decrement s.dt := rfl
@[simp] theorem tick_st : (tick s).st = decrement s.st := rfl
@[simp] theorem tick_display : (tick s).display = s.display := rfl
@[simp] theorem tick_key : (tick s).key = s.key := rfl
@[simp] theorem tick_blocking : (tick s).blocking = s.blocking := rfl
@[simp] theorem tick_mem : (tick s).mem = s.mem := rfl
@[simp] theorem tick_draws : (tick s).draws = s.draws := rfl

end

/-! ### drawByte -/

@[simp] theorem drawByte_fst (s : State) : (drawByte s).1 = Config.randByte s.draws := rfl

@[simp] theorem drawByte_snd (s : State) : (drawByte s).2 = { s with draws := s.draws + 1 } := rfl

/-! ### Reading a register after an update -/

theorem readV_writeV (r x : RegNum) (b : Byte) (s : State) :
    readV r (writeV x b s) = if r = x then b else readV r s := by
  simp only [readV, writeV_v, Fin.getElem_fin, Vector.getElem_set, Fin.ext_iff, eq_comm]

@[simp] theorem readV_writeV_self (x : RegNum) (b : Byte) (s : State) : readV x (writeV x b s) = b := by
  simp [readV_writeV]

@[simp] theorem readV_advance (r : RegNum) (s : State) : readV r (advance s) = readV r s := rfl

@[simp] theorem readV_skipIf (r : RegNum) (c : Bool) (s : State) : readV r (skipIf c s) = readV r s := rfl

@[simp] theorem readV_storeAt (r : RegNum) (base : Nat) (bytes : List Byte) (s : State) :
    readV r (storeAt base bytes s) = readV r s := rfl

/-- The flag is what VF holds after a result and a flag are written, also when the result goes to VF. -/
theorem readV_writeResultFlag (r x : RegNum) (b flag : Byte) (s : State) :
    readV r (writeResultFlag x b flag s) = if r = vf then flag else if r = x then b else readV r s := by
  simp only [writeResultFlag, readV_writeV]

theorem readV_loadRegs (r x : RegNum) (base : Nat) (s : State) :
    readV r (loadRegs x base s) = if r.val ≤ x.val then s.mem.read (base + r.val) else readV r s := by
  simp [readV, loadRegs]

end Sys2Proof.Machine
end

