-- ==== Sys2Proof/Laws/Ops.lean ====
section
/-! SUPPORT. For each shared operation, everything it can do. -/

namespace Sys2Proof.Machine

/-! ### Ranges and faults -/

theorem inRange_iff (a n : Nat) : inRange a n = true ↔ n = 0 ∨ a + n ≤ 4096 := by
  simp only [inRange, Config.memSize, Bool.or_eq_true, beq_iff_eq, decide_eq_true_eq]

theorem guardRange_of_inRange {a n : Nat} (go : Result) (h : n = 0 ∨ a + n ≤ 4096) : guardRange a n go = go := by
  rw [guardRange, if_pos ((inRange_iff a n).2 h)]

theorem guardRange_of_not_inRange {a n : Nat} (go : Result) (hn : n ≠ 0) (h : 4096 < a + n) :
    guardRange a n go = .fault (.memoryAccessOutOfRange a n) := by
  rw [guardRange, if_neg (by rw [inRange_iff]; omega), raise]

/-- A guarded operation goes on to a next state only with its range inside memory. -/
theorem guardRange_eq_next {a n : Nat} {go : Result} {t : State} :
    guardRange a n go = .next t ↔ (n = 0 ∨ a + n ≤ 4096) ∧ go = .next t := by
  rw [guardRange, ← inRange_iff]
  split <;> simp_all [raise]

/-- A guarded store or load faults exactly when its range is not empty and passes the end of memory (R125). -/
theorem guardRange_next_eq_fault {a n : Nat} {t : State} {f : Fault} :
    guardRange a n (.next t) = .fault f ↔ (n ≥ 1 ∧ a + n > 4096) ∧ f = .memoryAccessOutOfRange a n := by
  rw [guardRange]
  split <;> rename_i h <;> rw [inRange_iff] at h
  · simp only [reduceCtorEq, false_iff]
    omega
  · have h' : n ≥ 1 ∧ a + n > 4096 := by omega
    simp [raise, h', eq_comm]

theorem guardRange_ne_refused {a n : Nat} {t : State} (r : Refusal) : guardRange a n (.next t) ≠ .refused r := by
  rw [guardRange]
  split <;> simp [raise]

/-! ### Key indices -/

@[simp] theorem keyIndex_of_fin (k : Fin 16) : keyIndex k.val = some k := by
  simp [keyIndex]

theorem keyIndex_eq_some {k : Nat} {j : Fin 16} : keyIndex k = some j ↔ k = j.val := by
  rw [keyIndex]
  split
  · simp only [Option.some.injEq, Fin.ext_iff]
  · have := j.isLt
    simp only [reduceCtorEq, false_iff]
    omega

theorem keyIndex_eq_none {k : Nat} : keyIndex k = none ↔ 15 < k := by
  rw [keyIndex]
  split
  · simp only [reduceCtorEq, false_iff]
    omega
  · simp only [true_iff]
    omega

theorem skipOnKey_of_key {x : RegNum} {s : State} {k : Fin 16} (c : Bool → Bool) (h : (readV x s).toNat = k.val) :
    skipOnKey x c s = .next (skipIf (c s.key[k]) s) := by
  rw [skipOnKey, h, keyIndex_of_fin]

theorem skipOnKey_of_not_key {x : RegNum} {s : State} (c : Bool → Bool) (h : 15 < (readV x s).toNat) :
    skipOnKey x c s = .fault (.invalidKeyIndex (readV x s).toNat) := by
  rw [skipOnKey, keyIndex_eq_none.2 h, raise]

/-- A keypad skip that goes on to a next state moves `pc` and nothing else. -/
theorem skipOnKey_eq_next {x : RegNum} {c : Bool → Bool} {s t : State} (h : skipOnKey x c s = .next t) :
    ∃ b, t = skipIf b s := by
  rw [skipOnKey] at h
  split at h
  · simp [raise] at h
  · exact ⟨_, by simpa using h.symm⟩

/-- A keypad skip faults exactly when the register names no key (R126). -/
theorem skipOnKey_eq_fault {x : RegNum} {c : Bool → Bool} {s : State} {f : Fault} :
    skipOnKey x c s = .fault f ↔ (readV x s).toNat > 15 ∧ f = .invalidKeyIndex (readV x s).toNat := by
  rw [skipOnKey]
  split <;> rename_i h
  · have h' : (readV x s).toNat > 15 := keyIndex_eq_none.1 h
    simp [raise, h', eq_comm]
  · have h' := keyIndex_eq_some.1 h
    simp only [reduceCtorEq, false_iff]
    omega

theorem skipOnKey_ne_refused (x : RegNum) (c : Bool → Bool) (s : State) (r : Refusal) :
    skipOnKey x c s ≠ .refused r := by
  rw [skipOnKey]
  split <;> simp [raise]

/-! ### The call stack -/

theorem popEntry_of_empty {s : State} (h : s.sp.val = 0) : popEntry s = none := by
  rw [popEntry, if_pos h]

/-- A pop takes the entry below the stack pointer and lowers the pointer; the stack keeps its entries (R20). -/
theorem popEntry_of_live {s : State} {k : Fin 16} (h : s.sp.val = k.val + 1) :
    popEntry s = some (s.stack[k], { s with sp := k.castSucc }) := by
  have hk : s.sp.val - 1 = k.val := by omega
  have hp : ¬ s.sp.val = 0 := by omega
  have hf : (⟨s.sp.val - 1, by omega⟩ : Fin 17) = k.castSucc := Fin.ext hk
  rw [popEntry, if_neg hp, topEntry, hf]
  simp only [hk, Fin.getElem_fin]

theorem popEntry_eq_some {s s' : State} {w : Word} (h : popEntry s = some (w, s')) :
    ∃ k : Fin 16, s.sp.val = k.val + 1 ∧ w = s.stack[k] ∧ s' = { s with sp := k.castSucc } := by
  have hsp := s.sp.isLt
  by_cases h0 : s.sp.val = 0
  · simp [popEntry_of_empty h0] at h
  · have hk : s.sp.val = (⟨s.sp.val - 1, by omega⟩ : Fin 16).val + 1 := by simp only; omega
    rw [popEntry_of_live hk] at h
    simp only [Option.some.injEq, Prod.mk.injEq] at h
    exact ⟨_, hk, h.1.symm, h.2.symm⟩

theorem pushPc_of_full {s : State} (h : s.sp.val = 16) : pushPc s = none := by
  simp [pushPc, h]

/-- A push writes `pc` at the stack pointer and raises the pointer (R69). -/
theorem pushPc_of_room {s : State} {k : Fin 16} (h : s.sp.val = k.val) :
    pushPc s = some { s with stack := s.stack.set k s.pc, sp := k.succ } := by
  have hk : s.sp.val < 16 := by have := k.isLt; omega
  simp [pushPc, h, Fin.succ]

theorem pushPc_eq_some {s s' : State} (h : pushPc s = some s') :
    ∃ k : Fin 16, s.sp.val = k.val ∧ s' = { s with stack := s.stack.set k s.pc, sp := k.succ } := by
  have hsp := s.sp.isLt
  by_cases h0 : s.sp.val = 16
  · simp [pushPc_of_full h0] at h
  · have hk : s.sp.val = (⟨s.sp.val, by omega⟩ : Fin 16).val := rfl
    rw [pushPc_of_room hk] at h
    exact ⟨_, hk, by simpa using h.symm⟩

/-! ### Fetch and decode -/

theorem memReadWord_of_inRange {m : Memory} {a : Nat} (h : a + 2 ≤ 4096) :
    memReadWord m a = .ok (wordOfBytes (m.read a) (m.read (a + 1))) := by
  rw [memReadWord, if_pos ((inRange_iff a 2).2 (.inr h))]

theorem memReadWord_of_not_inRange {m : Memory} {a : Nat} (h : 4096 < a + 2) :
    memReadWord m a = .error (.memoryAccessOutOfRange a 2) := by
  rw [memReadWord, if_neg (by rw [inRange_iff]; omega)]

theorem memReadWord_eq_ok {m : Memory} {a : Nat} {w : Word} (h : memReadWord m a = .ok w) :
    a + 2 ≤ 4096 ∧ w = wordOfBytes (m.read a) (m.read (a + 1)) := by
  rcases Nat.lt_or_ge 4096 (a + 2) with ha | ha
  · simp [memReadWord_of_not_inRange ha] at h
  · rw [memReadWord_of_inRange ha] at h
    exact ⟨ha, by simpa using h.symm⟩

/-- An instruction is fetched exactly where a word can be read at `pc` and decodes to it. -/
theorem fetchInstr_eq_ok {s : State} {i : Instr} :
    fetchInstr s = .ok i ↔ s.pc.toNat + 2 ≤ 4096 ∧
      decodeWord (wordOfBytes (s.mem.read s.pc.toNat) (s.mem.read (s.pc.toNat + 1))) = .ok i := by
  rw [fetchInstr, fetchWord]
  rcases Nat.lt_or_ge 4096 (s.pc.toNat + 2) with ha | ha
  · simp only [memReadWord_of_not_inRange ha, reduceCtorEq, false_iff, not_and]
    omega
  · rw [memReadWord_of_inRange ha]
    simp only [ha, true_and]
    split <;> simp_all

/-- What a Step that answers a next state did: nothing in a key wait, else exactly the fetched instruction. -/
theorem step_eq_next {s t : State} (h : step s = .next t) :
    (s.blocking = true ∧ t = s) ∨ (s.blocking = false ∧ ∃ i, fetchInstr s = .ok i ∧ exec i s = .next t) := by
  rw [step] at h
  split at h
  · exact .inl ⟨‹_›, by simpa [stepBlocked] using h.symm⟩
  · split at h
    · simp [raise] at h
    · rename_i hb _ _ hf
      exact .inr ⟨by simpa using hb, _, hf, h⟩

theorem step_of_blocking {s : State} (h : s.blocking = true) : step s = .next s := by
  rw [step, if_pos h, stepBlocked]

theorem step_of_fetchInstr {s : State} {i : Instr} (hb : s.blocking = false) (h : fetchInstr s = .ok i) :
    step s = exec i s := by
  rw [step, hb, h]
  simp

end Sys2Proof.Machine
end

