-- ==== Sys2Proof/Laws/PerInstr.lean ====
section
/-! SUPPORT. A fact about each instruction as syntax, one lemma for each constructor. -/

namespace Sys2Proof.Laws.RowMatch

/-- The word of an instruction selects the instruction's own row of the opcode table (30_encoding.md R59). -/
def Statement (i : Instr) : Prop := ∃ r ∈ opcodeTable, r.number = i.row ∧ rowSelects (encode i) r = true

/-! ### The words of each format under the mask of their row -/

theorem selects_A (k op : Nat) (h : op < 16) (nnn : Addr) (bits : Word) (hb : bits.toNat = op * 0x1000) :
    rowSelects (encodeA op nnn) ⟨k, bits, 0xF000⟩ = true := by
  simp only [rowSelects, beq_iff_eq]
  apply BitVec.eq_of_toNat_eq
  rw [and_F000, fieldOp_encodeA nnn h, hb]

theorem selects_XI (k op : Nat) (h : op < 16) (x : RegNum) (nn : Byte) (bits : Word) (hb : bits.toNat = op * 0x1000) :
    rowSelects (encodeXI op x nn) ⟨k, bits, 0xF000⟩ = true := by
  simp only [rowSelects, beq_iff_eq]
  apply BitVec.eq_of_toNat_eq
  rw [and_F000, fieldOp_encodeXI x nn h, hb]

theorem selects_XF (k op : Nat) (h : op < 16) (x : RegNum) (fn : Byte) (bits : Word)
    (hb : bits.toNat = op * 0x1000 + fn.toNat) : rowSelects (encodeXI op x fn) ⟨k, bits, 0xF0FF⟩ = true := by
  simp only [rowSelects, beq_iff_eq]
  apply BitVec.eq_of_toNat_eq
  rw [and_F0FF, fieldOp_encodeXI x fn h, fieldNN_encodeXI x fn h, hb]

theorem selects_XY (k op fn : Nat) (h : op < 16) (hfn : fn < 16) (x y : RegNum) (bits : Word)
    (hb : bits.toNat = op * 0x1000 + fn) : rowSelects (encodeXY op x y fn) ⟨k, bits, 0xF00F⟩ = true := by
  simp only [rowSelects, beq_iff_eq]
  apply BitVec.eq_of_toNat_eq
  rw [and_F00F, fieldOp_encodeXY x y h hfn, fieldN_encodeXY x y h hfn, hb]

theorem selects_XYN (k op n : Nat) (h : op < 16) (x y : RegNum) (bits : Word) (hb : bits.toNat = op * 0x1000) :
    rowSelects (encodeXY op x y n) ⟨k, bits, 0xF000⟩ = true := by
  have hn : n % 16 < 16 := Nat.mod_lt _ (by decide)
  have he : encodeXY op x y n = encodeXY op x y (n % 16) := by simp only [encodeXY, Nat.mod_mod]
  simp only [rowSelects, beq_iff_eq]
  apply BitVec.eq_of_toNat_eq
  rw [and_F000, he, fieldOp_encodeXY x y h hn, hb]

/-! ### One lemma for each constructor -/

theorem cls : Statement .cls :=
  ⟨⟨1, 0x00E0, 0xFFFF⟩, by decide, rfl, by decide⟩

theorem ret : Statement .ret :=
  ⟨⟨2, 0x00EE, 0xFFFF⟩, by decide, rfl, by decide⟩

theorem jp (nnn : Addr) : Statement (.jp nnn) :=
  ⟨⟨3, 0x1000, 0xF000⟩, by decide, rfl, selects_A _ 0x1 (by decide) nnn _ (by decide)⟩

theorem call (nnn : Addr) : Statement (.call nnn) :=
  ⟨⟨4, 0x2000, 0xF000⟩, by decide, rfl, selects_A _ 0x2 (by decide) nnn _ (by decide)⟩

theorem se (x : RegNum) (nn : Byte) : Statement (.se x nn) :=
  ⟨⟨5, 0x3000, 0xF000⟩, by decide, rfl, selects_XI _ 0x3 (by decide) x nn _ (by decide)⟩

theorem sne (x : RegNum) (nn : Byte) : Statement (.sne x nn) :=
  ⟨⟨6, 0x4000, 0xF000⟩, by decide, rfl, selects_XI _ 0x4 (by decide) x nn _ (by decide)⟩

theorem ser (x y : RegNum) : Statement (.ser x y) :=
  ⟨⟨7, 0x5000, 0xF00F⟩, by decide, rfl, selects_XY _ 0x5 0x0 (by decide) (by decide) x y _ (by decide)⟩

theorem ldi (x : RegNum) (nn : Byte) : Statement (.ldi x nn) :=
  ⟨⟨8, 0x6000, 0xF000⟩, by decide, rfl, selects_XI _ 0x6 (by decide) x nn _ (by decide)⟩

theorem addi (x : RegNum) (nn : Byte) : Statement (.addi x nn) :=
  ⟨⟨9, 0x7000, 0xF000⟩, by decide, rfl, selects_XI _ 0x7 (by decide) x nn _ (by decide)⟩

theorem mov (x y : RegNum) : Statement (.mov x y) :=
  ⟨⟨10, 0x8000, 0xF00F⟩, by decide, rfl, selects_XY _ 0x8 0x0 (by decide) (by decide) x y _ (by decide)⟩

theorem or (x y : RegNum) : Statement (.or x y) :=
  ⟨⟨11, 0x8001, 0xF00F⟩, by decide, rfl, selects_XY _ 0x8 0x1 (by decide) (by decide) x y _ (by decide)⟩

theorem and (x y : RegNum) : Statement (.and x y) :=
  ⟨⟨12, 0x8002, 0xF00F⟩, by decide, rfl, selects_XY _ 0x8 0x2 (by decide) (by decide) x y _ (by decide)⟩

theorem xor (x y : RegNum) : Statement (.xor x y) :=
  ⟨⟨13, 0x8003, 0xF00F⟩, by decide, rfl, selects_XY _ 0x8 0x3 (by decide) (by decide) x y _ (by decide)⟩

theorem add (x y : RegNum) : Statement (.add x y) :=
  ⟨⟨14, 0x8004, 0xF00F⟩, by decide, rfl, selects_XY _ 0x8 0x4 (by decide) (by decide) x y _ (by decide)⟩

theorem sub (x y : RegNum) : Statement (.sub x y) :=
  ⟨⟨15, 0x8005, 0xF00F⟩, by decide, rfl, selects_XY _ 0x8 0x5 (by decide) (by decide) x y _ (by decide)⟩

theorem shr (x y : RegNum) : Statement (.shr x y) :=
  ⟨⟨16, 0x8006, 0xF00F⟩, by decide, rfl, selects_XY _ 0x8 0x6 (by decide) (by decide) x y _ (by decide)⟩

theorem subn (x y : RegNum) : Statement (.subn x y) :=
  ⟨⟨17, 0x8007, 0xF00F⟩, by decide, rfl, selects_XY _ 0x8 0x7 (by decide) (by decide) x y _ (by decide)⟩

theorem shl (x y : RegNum) : Statement (.shl x y) :=
  ⟨⟨18, 0x800E, 0xF00F⟩, by decide, rfl, selects_XY _ 0x8 0xE (by decide) (by decide) x y _ (by decide)⟩

theorem sner (x y : RegNum) : Statement (.sner x y) :=
  ⟨⟨19, 0x9000, 0xF00F⟩, by decide, rfl, selects_XY _ 0x9 0x0 (by decide) (by decide) x y _ (by decide)⟩

theorem idx (nnn : Addr) : Statement (.idx nnn) :=
  ⟨⟨20, 0xA000, 0xF000⟩, by decide, rfl, selects_A _ 0xA (by decide) nnn _ (by decide)⟩

theorem idxo (nnn : Addr) : Statement (.idxo nnn) :=
  ⟨⟨21, 0xB000, 0xF000⟩, by decide, rfl, selects_A _ 0xB (by decide) nnn _ (by decide)⟩

theorem rnd (x : RegNum) (nn : Byte) : Statement (.rnd x nn) :=
  ⟨⟨22, 0xC000, 0xF000⟩, by decide, rfl, selects_XI _ 0xC (by decide) x nn _ (by decide)⟩

theorem drw (x y : RegNum) (n : Nat) : Statement (.drw x y n) :=
  ⟨⟨23, 0xD000, 0xF000⟩, by decide, rfl, selects_XYN _ 0xD n (by decide) x y _ (by decide)⟩

theorem skp (x : RegNum) : Statement (.skp x) :=
  ⟨⟨24, 0xE09E, 0xF0FF⟩, by decide, rfl, selects_XF _ 0xE (by decide) x 0x9E _ (by decide)⟩

theorem sknp (x : RegNum) : Statement (.sknp x) :=
  ⟨⟨25, 0xE0A1, 0xF0FF⟩, by decide, rfl, selects_XF _ 0xE (by decide) x 0xA1 _ (by decide)⟩

theorem rddt (x : RegNum) : Statement (.rddt x) :=
  ⟨⟨26, 0xF007, 0xF0FF⟩, by decide, rfl, selects_XF _ 0xF (by decide) x 0x07 _ (by decide)⟩

theorem waitk (x : RegNum) : Statement (.waitk x) :=
  ⟨⟨27, 0xF00A, 0xF0FF⟩, by decide, rfl, selects_XF _ 0xF (by decide) x 0x0A _ (by decide)⟩

theorem wrdt (x : RegNum) : Statement (.wrdt x) :=
  ⟨⟨28, 0xF015, 0xF0FF⟩, by decide, rfl, selects_XF _ 0xF (by decide) x 0x15 _ (by decide)⟩

theorem wrst (x : RegNum) : Statement (.wrst x) :=
  ⟨⟨29, 0xF018, 0xF0FF⟩, by decide, rfl, selects_XF _ 0xF (by decide) x 0x18 _ (by decide)⟩

theorem addx (x : RegNum) : Statement (.addx x) :=
  ⟨⟨30, 0xF01E, 0xF0FF⟩, by decide, rfl, selects_XF _ 0xF (by decide) x 0x1E _ (by decide)⟩

theorem font (x : RegNum) : Statement (.font x) :=
  ⟨⟨31, 0xF029, 0xF0FF⟩, by decide, rfl, selects_XF _ 0xF (by decide) x 0x29 _ (by decide)⟩

theorem bcd (x : RegNum) : Statement (.bcd x) :=
  ⟨⟨32, 0xF033, 0xF0FF⟩, by decide, rfl, selects_XF _ 0xF (by decide) x 0x33 _ (by decide)⟩

theorem stm (x : RegNum) : Statement (.stm x) :=
  ⟨⟨33, 0xF055, 0xF0FF⟩, by decide, rfl, selects_XF _ 0xF (by decide) x 0x55 _ (by decide)⟩

theorem ldm (x : RegNum) : Statement (.ldm x) :=
  ⟨⟨34, 0xF065, 0xF0FF⟩, by decide, rfl, selects_XF _ 0xF (by decide) x 0x65 _ (by decide)⟩

end Sys2Proof.Laws.RowMatch
end

