-- ==== Sys2Proof/Laws/Safety.lean ====
section
/-! SUPPORT. What the terms of claims say of the shared operations. -/

namespace Sys2Proof.Safety

open Sys2Proof.Machine

/-- Reading after a store gives the stored byte inside its range and the old one outside it. -/
theorem read_storeBytes_eq_byteAfterStore (m : Memory) (base : Nat) (bytes : List Byte) (a : Nat) :
    (m.storeBytes base bytes).read a = byteAfterStore m base bytes a := by
  rw [read_storeBytes, byteAfterStore]
  by_cases h : base ≤ a ∧ a < base + bytes.length
  · have ha : ¬ a < base := by omega
    have hl : a - base < bytes.length := by omega
    simp [h, ha, hl]
  · by_cases ha : a < base
    · rw [if_pos ha, if_neg h]
    · have hl : bytes.length ≤ a - base := by omega
      rw [if_neg ha, if_neg h, List.getD_eq_getElem?_getD, List.getElem?_eq_none hl, Option.getD_none]

/-- A fetch after a store reads both bytes through it. -/
theorem fetchWord_after_store {s : State} {m : Memory} {base : Nat} {bytes : List Byte} (h : s.pc.toNat ≤ 0xFFE)
    (hm : s.mem = m.storeBytes base bytes) :
    fetchWord s = .ok (wordOfBytes (byteAfterStore m base bytes s.pc.toNat)
      (byteAfterStore m base bytes (s.pc.toNat + 1))) := by
  rw [fetchWord, memReadWord_of_inRange (by omega)]
  simp only [hm, read_storeBytes_eq_byteAfterStore]

end Sys2Proof.Safety
end

