-- ==== Sys2Proof/Tests/Slice0.lean ====
section
/-! SUPPORT. The model's own tests: words written out from the spec's encodings, one-step vectors of
spec/95_test_vectors.md (named by their ids), and a witness for the hypotheses of every statement that has some. -/

namespace Sys2Proof.Tests

open Sys2Proof.Machine Sys2Proof.Safety

/-! ### Helpers -/

/-- The reset state with some registers, `I`, and bytes stored at `I`. -/
def start (regs : List (RegNum × Byte)) (i : Word := 0) (bytes : List Byte := []) : State :=
  storeAt i.toNat bytes (regs.foldl (fun s p => writeV p.1 p.2 s) { State.reset with i := i })

/-- One Step of the word placed at `pc`. -/
def run (w : Nat) (s : State) : Result := step (s.withFetchWord 16 w)

/-- A part of the next state, if there is one. -/
def nextOf {α : Type} (f : State → α) : Result → Option α
  | .next t => some (f t)
  | .fault _ | .refused _ => none

/-- The fault, if there is one. -/
def faultOf : Result → Option Fault
  | .fault f => some f
  | .next _ | .refused _ => none

/-- A part of the state after an operation that is Done. -/
def doneOf {α : Type} (f : State → α) : OpOutcome → Option α
  | .done t => some (f t)
  | .blocked | .ignored | .fault _ | .refused _ => none

/-- The columns 0 to 15 and 60 to 63 of a display row that are lit. -/
def lit (y : Fin 32) (s : State) : List (Fin 64) :=
  let columns : List (Fin 64) := [0, 1, 2, 3, 4, 5, 6, 7, 8, 9] ++ [10, 11, 12, 13, 14, 15, 60, 61, 62, 63]
  columns.filter fun x => pixel s.display x y

/-! ### Well-formedness -/

theorem test_wf_refuses_drw_16_rows : (Instr.drw 0 0 16).wf = false := by decide
theorem test_wf_accepts_drw_15_rows : (Instr.drw 15 15 15).wf = true := by decide

/-! ### Decoding: one word of every instruction, written out from the formats and selectors of 30_encoding.md
R51, R53 and R59 -/

theorem test_decode_control :
    decode [0x00, 0xE0] = .ok (.cls, []) ∧ decode [0x00, 0xEE] = .ok (.ret, []) ∧
    decode [0x1A, 0xBC] = .ok (.jp 0xABC, []) ∧ decode [0x24, 0x56] = .ok (.call 0x456, []) ∧
    decode [0x3A, 0x42] = .ok (.se 0xA 0x42, []) ∧ decode [0x4B, 0x43] = .ok (.sne 0xB 0x43, []) ∧
    decode [0x51, 0x20] = .ok (.ser 1 2, []) ∧ decode [0x9C, 0xD0] = .ok (.sner 0xC 0xD, []) := by decide

theorem test_decode_alu :
    decode [0x6A, 0xFF] = .ok (.ldi 0xA 0xFF, []) ∧ decode [0x7F, 0x01] = .ok (.addi 0xF 1, []) ∧
    decode [0x81, 0x20] = .ok (.mov 1 2, []) ∧ decode [0x81, 0x21] = .ok (.or 1 2, []) ∧
    decode [0x81, 0x22] = .ok (.and 1 2, []) ∧ decode [0x81, 0x23] = .ok (.xor 1 2, []) := by decide

theorem test_decode_alu_flags :
    decode [0x81, 0x24] = .ok (.add 1 2, []) ∧ decode [0x81, 0x25] = .ok (.sub 1 2, []) ∧
    decode [0x81, 0x26] = .ok (.shr 1 2, []) ∧ decode [0x81, 0x27] = .ok (.subn 1 2, []) ∧
    decode [0x81, 0x2E] = .ok (.shl 1 2, []) := by decide

theorem test_decode_index_draw_key :
    decode [0xAF, 0xF1] = .ok (.idx 0xFF1, []) ∧ decode [0xB3, 0x01] = .ok (.idxo 0x301, []) ∧
    decode [0xC3, 0x0F] = .ok (.rnd 3 0x0F, []) ∧ decode [0xD1, 0x2F] = .ok (.drw 1 2 15, []) ∧
    decode [0xE5, 0x9E] = .ok (.skp 5, []) ∧ decode [0xE5, 0xA1] = .ok (.sknp 5, []) := by decide

theorem test_decode_timer_memory :
    decode [0xF1, 0x07] = .ok (.rddt 1, []) ∧ decode [0xF2, 0x0A] = .ok (.waitk 2, []) ∧
    decode [0xF3, 0x15] = .ok (.wrdt 3, []) ∧ decode [0xF4, 0x18] = .ok (.wrst 4, []) ∧
    decode [0xF5, 0x1E] = .ok (.addx 5, []) ∧ decode [0xF6, 0x29] = .ok (.font 6, []) ∧
    decode [0xF7, 0x33] = .ok (.bcd 7, []) ∧ decode [0xF8, 0x55] = .ok (.stm 8, []) ∧
    decode [0xF9, 0x65] = .ok (.ldm 9, []) := by decide

/-- T-F5: the illegal words, each rejected under its own name. -/
theorem test_decode_illegal :
    (([0x0000, 0x00E1, 0x00FE, 0x0123, 0x5121, 0x512F, 0x8128, 0x812D, 0x812F] : List Word) ++
      [0x9121, 0xE19F, 0xE100, 0xF100, 0xF156, 0xF1FF, 0xFFFF]).all
        (fun w => decide (decodeWord w = Except.error (DecodeError.illegal w))) = true := by decide

/-- Instructions are two bytes: the rest of a sequence stays, a single byte is no instruction (R49). -/
theorem test_decode_rest :
    decode [0x60, 0x05, 0x70] = .ok (.ldi 0 5, [0x70]) ∧ decode [0x60] = .error .truncated ∧
    decode [] = .error .truncated := by decide

theorem test_decode_table_word :
    decodeTableWord 16 0xD125 = some (.drw 1 2 5) ∧ decodeTableWord 16 0xF156 = none := by decide

/-! ### Control flow -/

/-- T-C1. -/
theorem test_cls : nextOf (fun t => (lit 0 t, lit 31 t, t.pc))
    (run 0x00E0 { start [] with display := setPixel (setPixel clearDisplay 0 0 true) 63 31 true }) =
    some ([], [], 0x202) := by decide

/-- T-C7 and T-C8. -/
theorem test_ret : nextOf (fun t => (t.sp.val, t.pc, t.stack[0]))
    (run 0x00EE { start [] with pc := 0x456, sp := 1, stack := (State.reset.stack).set 0 0x2A0 }) =
    some (0, 0x2A2, 0x2A0) ∧
    faultOf (run 0x00EE { start [] with pc := 0x456 }) = some (.stackUnderflow 0x456) := by decide

/-- T-C2. -/
theorem test_jp : nextOf (·.pc) (run 0x1ABC (start [])) = some 0xABC := by decide

/-- T-C5 and T-C6. -/
theorem test_call : nextOf (fun t => (t.stack[15], t.sp.val, t.pc))
    (run 0x2456 { start [] with pc := 0x2A0, sp := 15 }) = some (0x2A0, 16, 0x456) ∧
    faultOf (run 0x2456 { start [] with pc := 0x2A0, sp := 16 }) = some (.stackOverflow 0x2A0) := by decide

/-- T-C9 to T-C12. -/
theorem test_skip_immediate :
    nextOf (·.pc) (run 0x3A42 (start [(0xA, 0x42)])) = some 0x204 ∧
    nextOf (·.pc) (run 0x3A42 (start [(0xA, 0x41)])) = some 0x202 ∧
    nextOf (·.pc) (run 0x4A42 (start [(0xA, 0x42)])) = some 0x202 ∧
    nextOf (·.pc) (run 0x4A42 (start [(0xA, 0x41)])) = some 0x204 := by decide

/-- T-C13, T-C14, T-C16 and T-C17. -/
theorem test_skip_register :
    nextOf (·.pc) (run 0x5120 (start [(1, 7), (2, 7)])) = some 0x204 ∧
    nextOf (·.pc) (run 0x5120 (start [(1, 7), (2, 8)])) = some 0x202 ∧
    nextOf (·.pc) (run 0x9120 (start [(1, 7), (2, 7)])) = some 0x202 ∧
    nextOf (·.pc) (run 0x9120 (start [(1, 7), (2, 8)])) = some 0x204 := by decide

/-- T-C18: a skip at the last fetchable address. -/
theorem test_skip_at_the_end : nextOf (·.pc) (run 0x3000 { start [] with pc := 0xFFE }) = some 0x1002 := by decide

/-! ### Arithmetic, logic and registers -/

/-- T-A2 and T-A6. -/
theorem test_immediate :
    nextOf (readV 0xF) (run 0x6F77 (start [])) = some 0x77 ∧
    nextOf (readV 0xF) (run 0x7F01 (start [(0xF, 0xFF)])) = some 0 := by decide

/-- T-A7 to T-A10. -/
theorem test_copy_and_logic :
    nextOf (fun t => (readV 0 t, readV 0xF t)) (run 0x8010 (start [(0, 0x01), (1, 0xAB), (0xF, 9)])) = some (0xAB, 9) ∧
    nextOf (fun t => (readV 0 t, readV 0xF t)) (run 0x8011 (start [(0, 0xF0), (1, 0x0F), (0xF, 9)])) = some (0xFF, 9) ∧
    nextOf (fun t => (readV 0 t, readV 0xF t)) (run 0x8012 (start [(0, 0xF0), (1, 0x3C), (0xF, 9)])) = some (0x30, 9) ∧
    nextOf (fun t => (readV 0 t, readV 0xF t)) (run 0x8013 (start [(0, 0xF0), (1, 0x3C), (0xF, 9)])) =
      some (0xCC, 9) := by decide

/-- T-A12, T-A14 to T-A17. -/
theorem test_add :
    nextOf (fun t => (readV 0 t, readV 0xF t)) (run 0x8014 (start [(0, 0xFF), (1, 0xFF)])) = some (0xFE, 1) ∧
    nextOf (readV 0xF) (run 0x8F14 (start [(0xF, 0xF0), (1, 0x20)])) = some 1 ∧
    nextOf (readV 0xF) (run 0x8F14 (start [(0xF, 0x10), (1, 0x20)])) = some 0 ∧
    nextOf (fun t => (readV 0 t, readV 0xF t)) (run 0x80F4 (start [(0, 0xFF), (0xF, 2)])) = some (1, 1) ∧
    nextOf (readV 0xF) (run 0x8FF4 (start [(0xF, 0x90)])) = some 1 := by decide

/-- T-A18 to T-A21. -/
theorem test_sub :
    nextOf (fun t => (readV 0 t, readV 0xF t)) (run 0x8015 (start [(1, 1)])) = some (0xFF, 0) ∧
    nextOf (fun t => (readV 0 t, readV 0xF t)) (run 0x8015 (start [])) = some (0, 1) ∧
    nextOf (readV 0xF) (run 0x8F15 (start [(0xF, 3), (1, 5)])) = some 0 ∧
    nextOf (fun t => (readV 0 t, readV 0xF t)) (run 0x80F5 (start [(0, 3), (0xF, 5)])) = some (0xFE, 0) := by decide

/-- T-A22 and T-A23. -/
theorem test_subn :
    nextOf (fun t => (readV 0 t, readV 0xF t)) (run 0x8017 (start [(0, 5), (1, 7)])) = some (2, 1) ∧
    nextOf (fun t => (readV 0 t, readV 0xF t)) (run 0x8017 (start [(0, 7), (1, 5)])) = some (0xFE, 0) := by decide

/-- T-A25 and T-A28. -/
theorem test_shr :
    nextOf (fun t => (readV 0 t, readV 1 t, readV 0xF t)) (run 0x8016 (start [(0, 5), (1, 0xFF)])) =
      some (2, 0xFF, 1) ∧
    nextOf (readV 0xF) (run 0x8F26 (start [(0xF, 3)])) = some 1 := by decide

/-- T-A29, T-A30 and T-A32. -/
theorem test_shl :
    nextOf (fun t => (readV 0 t, readV 0xF t)) (run 0x801E (start [(0, 0x81)])) = some (2, 1) ∧
    nextOf (fun t => (readV 0 t, readV 1 t, readV 0xF t)) (run 0x801E (start [(0, 0x41), (1, 0xFF), (0xF, 1)])) =
      some (0x82, 0xFF, 0) ∧
    nextOf (readV 0xF) (run 0x8F0E (start [(0xF, 0x7F)])) = some 0 := by decide

/-! ### Index, random, display and keypad -/

/-- T-I1 and T-I3. -/
theorem test_index :
    nextOf (fun t => (t.i, t.pc)) (run 0xAFFF (start [] 0x1234)) = some (0xFFF, 0x202) ∧
    nextOf (fun t => (t.i, t.pc)) (run 0xBFFF (start [(0, 0xFF)])) = some (0x10FE, 0x202) := by decide

/-- T-I4 and T-I5: the drawn byte is free, the mask is not. -/
theorem test_rnd :
    nextOf (readV 3) (run 0xC30F (start [(3, 5)])) = some (Config.randByte 0 &&& 0x0F) ∧
    nextOf (fun t => (t.pc, t.draws)) (run 0xC300 (start [(3, 5)])) = some (0x202, 1) := ⟨rfl, rfl⟩

/-- T-D1 and T-D2: wrap against clip, bit 7 leftmost. -/
theorem test_drw_wrap_and_clip :
    nextOf (fun t => (lit 5 t, lit 6 t, readV 0xF t)) (run 0xD012 (start [(0, 70), (1, 5)] 0x300 [0xFF, 0x81])) =
      some ([6, 7, 8, 9, 10, 11, 12, 13], [6, 13], 0) ∧
    nextOf (fun t => (lit 5 t, lit 6 t, readV 0xF t)) (run 0xD012 (start [(0, 60), (1, 5)] 0x300 [0xFF, 0x81])) =
      some ([60, 61, 62, 63], [60], 0) := by decide

/-- T-D15, T-D13, T-D12 and T-D20: collision, the range check, no rows, and VF as the anchor. -/
theorem test_drw_collision_and_range :
    nextOf (fun t => (lit 0 t, readV 0xF t)) (run 0xD011 { start [] 0x300 [0xC0] with
      display := setPixel (setPixel clearDisplay 1 0 true) 5 0 true }) = some ([0, 5], 1) ∧
    faultOf (run 0xD012 (start [] 0xFFF)) = some (.memoryAccessOutOfRange 0xFFF 2) ∧
    nextOf (fun t => (readV 0xF t, t.pc)) (run 0xD010 (start [(0xF, 1)] 0x1000)) = some (0, 0x202) ∧
    nextOf (fun t => (lit 2 t, readV 0xF t)) (run 0xDF11 (start [(0xF, 3), (1, 2)] 0x300 [0x80])) =
      some ([3], 0) := by decide

/-- T-I7, T-I8 and T-I11. -/
theorem test_skp :
    nextOf (·.pc) (run 0xE59E { start [(5, 0xA)] with pc := 0x230, key := (State.reset.key).set 0xA true }) =
      some 0x234 ∧
    nextOf (·.pc) (run 0xE59E { start [] with pc := 0x230 }) = some 0x232 ∧
    faultOf (run 0xE59E (start [(5, 0x10)])) = some (.invalidKeyIndex 0x10) := by decide

/-- T-I9, T-I10 and T-I12. -/
theorem test_sknp :
    nextOf (·.pc) (run 0xE5A1 { start [(5, 0xA)] with pc := 0x230, key := (State.reset.key).set 0xA true }) =
      some 0x232 ∧
    nextOf (·.pc) (run 0xE5A1 { start [(5, 0xF)] with pc := 0x230 }) = some 0x234 ∧
    faultOf (run 0xE5A1 (start [(5, 0xFF)])) = some (.invalidKeyIndex 0xFF) := by decide

/-! ### Timers, key wait, index and memory transfer -/

/-- T-M1, T-M2 and T-M3. -/
theorem test_timers :
    nextOf (readV 4) (run 0xF407 { start [] with dt := 0x2A }) = some 0x2A ∧
    nextOf (fun t => (t.dt, t.st)) (run 0xF315 (start [(3, 3)])) = some (3, 0) ∧
    nextOf (fun t => (t.dt, t.st)) (run 0xF318 (start [(3, 0xFF)])) = some (0, 0xFF) := by decide

/-- T-W1: the wait starts, `pc` and the register stay, the keys are cleared. -/
theorem test_waitk : nextOf (fun t => (t.blocking, t.key[1], t.pc, readV 0xA t))
    (run 0xFA0A { start [] with pc := 0x300, key := (State.reset.key).set 1 true }) =
    some (true, false, 0x300, 0) := by decide

/-- T-M5 and T-M6. -/
theorem test_addx :
    nextOf (·.i) (run 0xF21E (start [(2, 1)] 0x0FFF)) = some 0x1000 ∧
    nextOf (fun t => (t.i, readV 0xF t)) (run 0xF21E (start [(2, 2), (0xF, 7)] 0xFFFF)) = some (1, 7) := by decide

/-- T-M9 and T-M10. -/
theorem test_font :
    nextOf (·.i) (run 0xF329 (start [(3, 0x0F)])) = some 0x4B ∧
    nextOf (·.i) (run 0xF329 (start [(3, 0x1A)])) = some 0x32 := by decide

/-- T-M12 and T-M13. -/
theorem test_bcd :
    nextOf (fun t => (List.map t.mem.read [0xFFC, 0xFFD, 0xFFE, 0xFFF], t.i, t.pc)) (run 0xF533 (start [(5, 123)] 0xFFD)) =
      some ([0, 1, 2, 3], 0xFFD, 0x202) ∧
    faultOf (run 0xF533 (start [(5, 123)] 0xFFE)) = some (.memoryAccessOutOfRange 0xFFE 3) := by decide

/-- S4 and T-M19. -/
theorem test_stm :
    nextOf (fun t => (List.map t.mem.read [0x400, 0x401, 0x402, 0x403], t.i))
      (run 0xF255 (start [(0, 0x11), (1, 0x22), (2, 0x33), (3, 0x44)] 0x400 [0, 0, 0, 0xEE])) =
      some ([0x11, 0x22, 0x33, 0xEE], 0x400) ∧
    faultOf (run 0xF055 (start [(0, 0x5A)] 0x1000)) = some (.memoryAccessOutOfRange 0x1000 1) := by decide

/-- T-M20 and T-M22. -/
theorem test_ldm :
    nextOf (fun t => (readV 0 t, readV 1 t, readV 2 t, readV 3 t, t.i))
      (run 0xF265 (start [(3, 0x99)] 0x400 [1, 2, 3, 4])) = some (1, 2, 3, 0x99, 0x400) ∧
    faultOf (run 0xF165 (start [] 0xFFF)) = some (.memoryAccessOutOfRange 0xFFF 2) := by decide

/-! ### The Step and the operations of the host -/

/-- T-F1 and T-F4: the last fetchable address, and a word at an odd one. -/
theorem test_fetch :
    nextOf (·.pc) (step { start [] 0xFFE [0x1F, 0xFE] with pc := 0xFFE }) = some 0xFFE ∧
    nextOf (readV 0) (step { start [] 0x203 [0x60, 0x07] with pc := 0x203 }) = some 7 := by decide

/-- T-F2, T-F3 and the reset state, which holds no program. -/
theorem test_step_faults :
    faultOf (step { start [] with pc := 0xFFF }) = some (.memoryAccessOutOfRange 0xFFF 2) ∧
    faultOf (step { start [] with pc := 0x1000 }) = some (.memoryAccessOutOfRange 0x1000 2) ∧
    faultOf (step State.reset) = some (.unknownOpcode 0 0x200) := by decide

/-- T-H1: reset, its memory in canonical form. -/
theorem test_reset :
    State.reset.pc = 0x200 ∧ State.reset.mem.wf = true ∧
    List.map State.reset.mem.read [0x000, 0x001, 0x04B, 0x04C, 0x04F, 0x050, 0x200] =
      [0xF0, 0x90, 0xF0, 0x80, 0x80, 0, 0] := by decide

/-- T-H4: the trailing bytes of an earlier load stay. -/
theorem test_load : doneOf (fun t => List.map t.mem.read [0x200, 0x201, 0x202, 0x203, 0x204])
    (perform (.load [9, 9]) (start [] 0x200 [1, 2, 3, 4])) = some [9, 9, 3, 4, 0] := by decide

/-- T-H7 and T-H8. -/
theorem test_tick :
    doneOf (fun t => (t.dt, t.st)) (perform .tick { start [] with dt := 1 }) = some (0, 0) ∧
    doneOf (fun t => (t.dt, t.st)) (perform .tick { start [] with st := 2 }) = some (0, 1) := by decide

/-- T-H9 and T-H10. -/
theorem test_key_edge :
    doneOf (fun t => (t.key[0], t.key[1])) (perform (.keyEdge 0 true) (start [])) = some (true, false) ∧
    perform (.keyEdge 16 true) State.reset = .fault (.invalidKeyIndex 16) := ⟨by decide, rfl⟩

/-- T-W5, T-W6 and T-W7. -/
theorem test_complete_wait :
    perform (.completeWait 16) { start [] with blocking := true } = .fault (.invalidKeyIndex 16) ∧
    doneOf (fun t => (readV 0xA t, t.blocking, t.pc, t.key[15]))
      (perform (.completeWait 15) { start [] 0x300 [0xFA, 0x0A] with pc := 0x300, blocking := true }) =
      some (15, false, 0x302, false) ∧
    perform (.completeWait 3) (start []) = .ignored := ⟨rfl, by decide, rfl⟩

/-- S9a and T-H12: the glyph of 0 in the top left corner. -/
theorem test_read_display : nextOf (fun t => ((readDisplay t)[1]?.map (·.take 5), (readDisplay t)[5]?.map (·.take 5)))
    (run 0xD005 State.reset) = some (some [1, 0, 0, 1, 0], some [0, 0, 0, 0, 0]) := by decide

/-! ### Witnesses: a state and operands that meet the hypotheses of each statement -/

theorem witness_DecodeOfEncodedInstruction : (Instr.drw 15 15 15).wf = true := by decide

theorem witness_EncodeOfDecodedWord : decodeWord 0xDFFF = .ok (.drw 15 15 15) := by decide

theorem witness_StepRunsTheDecodedInstruction :
    (start []).blocking = false ∧ ({ start [] 0xFFE [0x60, 0x05] with pc := 0xFFE } : State).pc.toNat + 2 ≤ 4096 ∧
    decodeWord (wordOfBytes ((start [] 0xFFE [0x60, 0x05]).mem.read 0xFFE) ((start [] 0xFFE [0x60, 0x05]).mem.read 0xFFF)) =
      .ok (.ldi 0 5) := by decide

/-- One state for each clause: a key wait, `pc` 0xFFF, and an illegal word at 0xFFE. -/
theorem witness_StepStopsBeforeTheHandler :
    ({ start [] with blocking := true } : State).blocking = true ∧
    (({ start [] with pc := 0xFFF } : State).blocking = false ∧ ({ start [] with pc := 0xFFF } : State).pc.toNat ≥ 0xFFF) ∧
    (({ start [] with pc := 0xFFE } : State).blocking = false ∧ ({ start [] with pc := 0xFFE } : State).pc.toNat ≤ 0xFFE ∧
      decodeWord (wordOfBytes ((start []).mem.read 0xFFE) ((start []).mem.read 0xFFF)) = .error (.illegal 0)) := by decide

theorem witness_FetchIsBigEndian : ({ start [] with pc := 0xFFE } : State).pc.toNat + 2 ≤ 4096 := by decide

theorem witness_PlacedWordRunsNext : decodeTableWord 16 0xF233 = some (.bcd 2) := by decide

/-- Both kinds of operation that the equivalences name occur. -/
theorem witness_EveryOperationEndsAsTheSpecSays :
    perform .step { start [] with blocking := true } = .blocked ∧ perform (.completeWait 15) (start []) = .ignored :=
  ⟨rfl, rfl⟩

/-- Empty stack, one entry, and sixteen. -/
theorem witness_RetResumesAfterTheCall :
    (start []).sp.val = 0 ∧ ({ start [] with sp := 1 } : State).sp.val = (0 : Fin 16).val + 1 ∧
    ({ start [] with sp := 16 } : State).sp.val = (15 : Fin 16).val + 1 := by decide

/-- Full stack, empty stack, and one free entry. -/
theorem witness_CallPushesItsOwnAddress :
    ({ start [] with sp := 16 } : State).sp.val = 16 ∧ (start []).sp.val = (0 : Fin 16).val ∧
    ({ start [] with sp := 15 } : State).sp.val = (15 : Fin 16).val := by decide

theorem witness_CallThenReturnResumes : ∃ t, exec (.call 0x456) (start []) = .next t := ⟨_, rfl⟩

theorem witness_SelfJumpChangesNothing : Ended (start [] 0x200 [0x12, 0x00]) :=
  ⟨rfl, 0x200, by decide, by decide +kernel⟩

/-- Every flag writer completes, DRW also with no rows. -/
theorem witness_FlagWritersLeaveZeroOrOne :
    (∃ t, exec (.add 0 1) (start []) = .next t) ∧ (∃ t, exec (.sub 0 1) (start []) = .next t) ∧
    (∃ t, exec (.subn 0 1) (start []) = .next t) ∧ (∃ t, exec (.shr 0 1) (start []) = .next t) ∧
    (∃ t, exec (.shl 0 1) (start []) = .next t) ∧ (∃ t, exec (.drw 0 1 0) (start []) = .next t) :=
  ⟨⟨_, rfl⟩, ⟨_, rfl⟩, ⟨_, rfl⟩, ⟨_, rfl⟩, ⟨_, rfl⟩, ⟨_, rfl⟩⟩

/-- Fifteen rows that end at the last byte of memory, and no rows with `I` outside memory. -/
theorem witness_DrawXorsTheSpriteAndReportsCollision :
    (15 ≤ 15 ∧ ((15 : Nat) = 0 ∨ (start [] 0xFF1).i.toNat + 15 ≤ 4096)) ∧
    (0 ≤ 15 ∧ ((0 : Nat) = 0 ∨ (start [] 0xFFFF).i.toNat + 0 ≤ 4096)) := by decide

/-- A first draw that meets no 1 pixel, with anchor registers other than VF. -/
theorem witness_DrawingTwiceRestoresTheDisplay :
    (1 ≤ 15 ∧ (0 : RegNum) ≠ vf ∧ (14 : RegNum) ≠ vf) ∧
    nextOf (fun t => t.v[vf]) (exec (.drw 0 14 1) (start [] 0xFFF [0xFF])) = some 0 := by decide

/-- Key indices 0 and 15, and the first value above. -/
theorem witness_KeySkipsFollowTheFlag :
    (start []).v[(5 : RegNum)].toNat = (0 : Fin 16).val ∧ (start [(5, 15)]).v[(5 : RegNum)].toNat = (15 : Fin 16).val ∧
    (start [(5, 16)]).v[(5 : RegNum)].toNat > 15 := by decide

/-- The last base address at which three bytes fit. -/
theorem witness_BcdStoresThreeDigits : (start [] 0xFFD).i.toNat + 3 ≤ 4096 := by decide

/-- All sixteen registers at the last base address at which they fit, and one register at the last byte. -/
theorem witness_StmStoresTheFirstRegisters :
    (start [] 0xFF0).i.toNat + (15 : RegNum).val + 1 ≤ 4096 ∧
    (start [] 0xFFF).i.toNat + (0 : RegNum).val + 1 ≤ 4096 := by decide

theorem witness_LdmLoadsTheFirstRegisters :
    (start [] 0xFF0).i.toNat + (15 : RegNum).val + 1 ≤ 4096 ∧
    (start [] 0xFFF).i.toNat + (0 : RegNum).val + 1 ≤ 4096 := by decide

theorem witness_StoreThenLoadReproducesTheRegisters :
    ∃ t u : State, exec (.stm 15) (start [] 0xFF0) = .next t ∧ u.mem = t.mem ∧ u.i = t.i ∧ u.v ≠ t.v :=
  ⟨_, writeV 3 7 _, rfl, rfl, rfl, by decide⟩

/-- One out-of-range transfer for each clause, at the first address where it is one. -/
theorem witness_TransfersOutOfRangeFault :
    (1 ≥ 1 ∧ (start [] 0x1000).i.toNat + 1 > 4096) ∧ (start [] 0xFFE).i.toNat > 4093 ∧
    (start [] 0xFFF).i.toNat + (1 : RegNum).val > 4095 := by decide

/-- Each store completes, at the end of memory, at the start, and at 0x200; the fetches at the boundary values of `pc`
meet the lower edge, the upper edge, and the last fetchable address. -/
theorem witness_StoreIsSeenByTheNextFetch :
    (∃ t, exec (.stm 0) (start [] 0xFFF) = .next t) ∧ (0xFFE : Word).toNat ≤ 0xFFE ∧
    (∃ t, exec (.bcd 1) (start [] 0x000) = .next t) ∧ (0x002 : Word).toNat ≤ 0xFFE ∧
    (∃ t, perform (.load [0x60]) (start []) = .done t) ∧ (0x1FF : Word).toNat ≤ 0xFFE :=
  ⟨⟨_, rfl⟩, by decide, ⟨_, rfl⟩, by decide, ⟨_, rfl⟩, by decide⟩

/-- The word at each edge of a stored range: one byte stored, the other old. -/
theorem test_fetch_at_the_edge_of_a_store :
    nextOf (fun t => (fetchWord { t with pc := 0x3FF }, fetchWord { t with pc := 0x400 }))
      (run 0xF055 (start [(0, 0x12)] 0x3FF [0xAA, 0, 0x34] |> fun s => { s with i := 0x400 })) =
      some (.ok 0xAA12, .ok 0x1234) := by decide

/-- The longest program that fits, with a byte of it and addresses on both sides, and the shortest that does not. -/
theorem witness_LoadCopiesTheProgramAndNothingElse :
    (List.replicate 3585 (0xAB : Byte)).length > 3584 ∧
    (List.replicate 3584 (0xAB : Byte)).length ≤ 3584 ∧ 3583 < (List.replicate 3584 (0xAB : Byte)).length ∧
    (0x1FF < 0x200 ∨ 0x200 + (List.replicate 3584 (0xAB : Byte)).length ≤ 0x1FF) ∧
    (0x1000 < 0x200 ∨ 0x200 + (List.replicate 3584 (0xAB : Byte)).length ≤ 0x1000) := by
  simp only [List.length_replicate]
  decide

theorem witness_KeyEdgeSetsOneFlag : 16 > 15 ∧ 0 = (0 : Fin 16).val ∧ 15 = (15 : Fin 16).val := by decide

/-- One state for each clause: key 16; no wait; a wait at the last fetchable `pc`; a wait just past it. -/
theorem witness_CompleteWaitWritesTheTarget :
    16 > 15 ∧ (15 ≤ 15 ∧ (start []).blocking = false) ∧
    (15 ≤ 15 ∧ ({ start [] with blocking := true, pc := 0xFFE } : State).blocking = true ∧
      ({ start [] with blocking := true, pc := 0xFFE } : State).pc.toNat ≤ 0xFFE) ∧
    (0 ≤ 15 ∧ ({ start [] with blocking := true, pc := 0xFFF } : State).blocking = true ∧
      ({ start [] with blocking := true, pc := 0xFFF } : State).pc.toNat ≥ 0xFFF) := by decide

/-- One fault of each kind, the last clause's hypothesis among them. -/
theorem witness_FaultsAreExactlyTheSpecsAndChangeNothing :
    perform .step State.reset = .fault (.unknownOpcode 0 0x200) ∧
    opFault .step State.reset = some (.unknownOpcode 0 0x200) ∧
    instrFault .ret (start []) = some (.stackUnderflow 0x200) ∧
    instrFault (.call 0) { start [] with sp := 16 } = some (.stackOverflow 0x200) ∧
    instrFault (.stm 0) (start [] 0x1000) = some (.memoryAccessOutOfRange 0x1000 1) ∧
    instrFault (.stm 0) (start [] 0xFFF) = none ∧
    instrFault (.skp 5) (start [(5, 16)]) = some (.invalidKeyIndex 16) := ⟨rfl, by decide⟩

theorem witness_OnlyEightInstructionsCanFault :
    (∀ nnn, Instr.cls ≠ .call nnn) ∧ Instr.cls ≠ .ret ∧ (∀ x y n, Instr.cls ≠ .drw x y n) ∧
    (∀ x, Instr.cls ≠ .bcd x ∧ Instr.cls ≠ .stm x ∧ Instr.cls ≠ .ldm x ∧ Instr.cls ≠ .skp x ∧ Instr.cls ≠ .sknp x) ∧
    ({ start [] with blocking := true } : State).blocking = true := by
  refine ⟨?_, ?_, ?_, ?_, rfl⟩ <;> simp

/-- A state with a self-jump at its `pc` satisfies the invariant, and its step answers a next state. -/
theorem witness_EveryStepKeepsTheInvariant :
    Inv (start [] 0x200 [0x12, 0x00]) ∧ ∃ t, step (start [] 0x200 [0x12, 0x00]) = .next t :=
  ⟨⟨by decide, by decide +kernel, by decide +kernel, by decide +kernel⟩, ⟨_, rfl⟩⟩

theorem witness_EveryOperationKeepsTheInvariant :
    Inv (start [] 0x200 [0x12, 0x00]) ∧ ∃ t, perform .tick (start [] 0x200 [0x12, 0x00]) = .done t :=
  ⟨⟨by decide, by decide +kernel, by decide +kernel, by decide +kernel⟩, ⟨_, rfl⟩⟩

/-- A reachable state in a key wait: Construct, Load of `F3 0A`, Step. -/
theorem witness_ReachableStatesKeepPcInBounds : ∃ s, Reachable s ∧ s.blocking = true ∧ 15 ≤ 15 :=
  ⟨_, .perform _ .step (.perform _ (.load [0xF3, 0x0A]) (.construct 0)), by decide, by decide +kernel⟩

/-- A run of three operations with no fault, from a state that satisfies the invariant. -/
theorem witness_RunsWithoutAFaultKeepTheInvariant :
    Inv (start []) ∧ ∃ t, runOps [.load [0x60, 0x05], .step, .tick] (start []) = some t :=
  ⟨⟨by decide, by decide, by decide, by decide⟩, ⟨_, rfl⟩⟩

/-- A Step that starts a key wait, and a completion that ends it. -/
theorem witness_RunStateChangesOnlyByWaitkAndCompletion :
    (∃ t, perform .step (start [] 0x200 [0xF3, 0x0A]) = .done t ∧ (start [] 0x200 [0xF3, 0x0A]).blocking = false ∧
      t.blocking = true) ∧
    (∃ t, perform (.completeWait 7) { start [] with blocking := true } = .done t ∧ t.blocking = false) :=
  ⟨⟨_, rfl, rfl, rfl⟩, ⟨_, rfl, rfl⟩⟩

theorem witness_InstructionsKeepOtherRegisters :
    (∃ t, exec (.add 1 2) (start []) = .next t) ∧ writesReg (.add 1 2) 2 = false ∧
    (∃ t, exec (.ldm 2) (start []) = .next t) ∧ writesReg (.ldm 2) 3 = false :=
  ⟨⟨_, rfl⟩, rfl, ⟨_, rfl⟩, rfl⟩

theorem witness_InstructionsKeepOtherSpecialRegisters :
    (∃ t, exec (.ldi 1 2) (start []) = .next t) ∧ writesIndex (.ldi 1 2) = false ∧ writesStack (.ldi 1 2) = false ∧
    (∀ x, Instr.ldi 1 2 ≠ .wrdt x) ∧ (∀ x, Instr.ldi 1 2 ≠ .wrst x) ∧ (∀ x, Instr.ldi 1 2 ≠ .waitk x) ∧
    (∀ x nn, Instr.ldi 1 2 ≠ .rnd x nn) := by
  refine ⟨⟨_, rfl⟩, rfl, rfl, ?_, ?_, ?_, ?_⟩ <;> simp

/-- An instruction for each clause, the storing ones at the end of memory. -/
theorem witness_InstructionsKeepDisplayAndMemory :
    (∃ t, exec (.ldi 1 2) (start []) = .next t) ∧ writesDisplay (.ldi 1 2) = false ∧ writesMemory (.ldi 1 2) = false ∧
    (∃ t, exec (.bcd 1) (start [] 0xFFD) = .next t) ∧ (0xFFC < (start [] 0xFFD).i.toNat ∨ (start [] 0xFFD).i.toNat + 3 ≤ 0xFFC) ∧
    (∃ t, exec (.stm 1) (start [] 0xFFE) = .next t) ∧
    (0xFFD < (start [] 0xFFE).i.toNat ∨ (start [] 0xFFE).i.toNat + ((1 : RegNum).val + 1) ≤ 0xFFD) :=
  ⟨⟨_, rfl⟩, rfl, rfl, ⟨_, rfl⟩, by decide, ⟨_, rfl⟩, by decide +kernel⟩

end Sys2Proof.Tests
end

