-- ==== Sys2Proof/Proofs/Memory.lean ====
section
/-! Proofs about memory (20_memory.md). -/

namespace Sys2Proof.Proofs

open Sys2Proof.Machine

/-- The fetch of a word whose two bytes exist (R36, R50). -/
theorem fetchWord_of_inRange {s : State} (h : s.pc.toNat + 2 ≤ 4096) :
    fetchWord s = .ok (wordOfBytes (s.mem.read s.pc.toNat) (s.mem.read (s.pc.toNat + 1))) := by
  rw [fetchWord, memReadWord_of_inRange h]

/-- Settles O8: the fetched word is `wordOfBytes` of the two bytes, whose number and halves are known. -/
theorem fetchIsBigEndian : Obligations.FetchIsBigEndian := by
  intro s h
  exact ⟨_, fetchWord_of_inRange h, wordOfBytes_toNat _ _, wordOfBytes_high _ _, wordOfBytes_low _ _⟩

end Sys2Proof.Proofs
end

