-- ==== Sys2Proof/Proofs/ControlFlow.lean ====
section
/-! Proofs about control flow (40_control_flow.md). -/

namespace Sys2Proof.Proofs

open Sys2Proof.Machine

/-! ### What the dispatch runs -/

theorem exec_cls (s : State) : exec .cls s = .next (advance { s with display := clearDisplay }) := rfl

theorem exec_ret (s : State) : exec .ret s = execRet s := rfl

theorem exec_jp (nnn : Addr) (s : State) : exec (.jp nnn) s = .next { s with pc := zextAddr nnn } := rfl

theorem exec_call (nnn : Addr) (s : State) : exec (.call nnn) s = execCall nnn s := rfl

theorem exec_se (x : RegNum) (nn : Byte) (s : State) :
    exec (.se x nn) s = .next (skipIf (readV x s == nn) s) := rfl

theorem exec_sne (x : RegNum) (nn : Byte) (s : State) :
    exec (.sne x nn) s = .next (skipIf (readV x s != nn) s) := rfl

theorem exec_ser (x y : RegNum) (s : State) :
    exec (.ser x y) s = .next (skipIf (readV x s == readV y s) s) := rfl

theorem exec_sner (x y : RegNum) (s : State) :
    exec (.sner x y) s = .next (skipIf (readV x s != readV y s) s) := rfl

/-! ### Jumps, calls and returns -/

/-- The address operand as a 16-bit number (R54). -/
theorem zextAddr_eq_ofNat (nnn : Addr) : zextAddr nnn = BitVec.ofNat 16 nnn.toNat :=
  (BitVec.ofNat_toNat 16 nnn).symm

theorem execRet_of_empty {s : State} (h : s.sp.val = 0) : execRet s = .fault (.stackUnderflow s.pc) := by
  simp only [execRet, popEntry_of_empty h, raise]

theorem execRet_of_live {s : State} {k : Fin 16} (h : s.sp.val = k.val + 1) :
    execRet s = .next { s with sp := k.castSucc, pc := s.stack[k] + 2 } := by
  simp only [execRet, popEntry_of_live h]

theorem execCall_of_full (nnn : Addr) {s : State} (h : s.sp.val = 16) :
    execCall nnn s = .fault (.stackOverflow s.pc) := by
  simp only [execCall, pushPc_of_full h, raise]

theorem execCall_of_room (nnn : Addr) {s : State} {k : Fin 16} (h : s.sp.val = k.val) :
    execCall nnn s = .next { s with stack := s.stack.set k s.pc, sp := k.succ, pc := zextAddr nnn } := by
  simp only [execCall, pushPc_of_room h]

/-! ### Skips -/

/-- A skip moves `pc` by 4 when the proposition its condition decides holds, else by 2 (R74). -/
theorem skipIf_eq_of_iff {c : Bool} {p : Prop} [Decidable p] (h : c = true ↔ p) (s : State) :
    skipIf c s = { s with pc := if p then s.pc + 4 else s.pc + 2 } := by
  simp only [skipIf, h, apply_ite (s.pc + ·)]

/-! ### The statements -/

/-- Settles O11: the cleared display has every pixel 0, and `advance` moves `pc` alone. -/
theorem clsClearsTheDisplay : Obligations.ClsClearsTheDisplay := by
  intro s
  exact ⟨_, exec_cls s, rfl, pixel_clearDisplay⟩

/-- Settles O12: an empty stack has no entry to pop, and entry `k` is the top where `sp` is `k + 1`. -/
theorem retResumesAfterTheCall : Obligations.RetResumesAfterTheCall := by
  intro s
  rw [exec_ret]
  exact ⟨execRet_of_empty, fun k h => ⟨_, execRet_of_live h, rfl, rfl⟩⟩

/-- Settles O13. -/
theorem jpSetsPc : Obligations.JpSetsPc := by
  intro nnn s
  rw [exec_jp, zextAddr_eq_ofNat]

/-- Settles O14: a full stack takes no entry, and where `sp` is `k` the push goes to entry `k`, before `pc` is set. -/
theorem callPushesItsOwnAddress : Obligations.CallPushesItsOwnAddress := by
  intro nnn s
  rw [exec_call, ← zextAddr_eq_ofNat]
  exact ⟨execCall_of_full nnn, fun k h => ⟨_, execCall_of_room nnn h, rfl, rfl⟩⟩

/-- Settles O15: the tests for equality and inequality with the immediate decide the two skips. -/
theorem skipsOnAnImmediate : Obligations.SkipsOnAnImmediate := by
  intro x nn s
  rw [exec_se, exec_sne]
  exact ⟨congrArg _ (skipIf_eq_of_iff beq_iff_eq s), congrArg _ (skipIf_eq_of_iff bne_iff_ne s)⟩

/-- Settles O16: the tests for equality and inequality of the two registers decide the two skips. -/
theorem skipsOnARegister : Obligations.SkipsOnARegister := by
  intro x y s
  rw [exec_ser, exec_sner]
  exact ⟨congrArg _ (skipIf_eq_of_iff beq_iff_eq s), congrArg _ (skipIf_eq_of_iff bne_iff_ne s)⟩

end Sys2Proof.Proofs
end

