-- ==== Sys2Proof/Proofs/Alu.lean ====
section
/-! Proofs about the arithmetic, logic and register instructions (41_alu.md). -/

namespace Sys2Proof.Proofs

open Sys2Proof.Machine

/-! ### What the dispatch runs -/

theorem exec_ldi (x : RegNum) (nn : Byte) (s : State) : exec (.ldi x nn) s = .next (advance (writeV x nn s)) := rfl

theorem exec_addi (x : RegNum) (nn : Byte) (s : State) :
    exec (.addi x nn) s = .next (advance (writeV x (readV x s + nn) s)) := rfl

/-! ### Registers and exact numbers -/

/-- The fields of the state after one register is written and `pc` advances: no other field moves (R10, R17). -/
theorem advance_writeV (x : RegNum) (b : Byte) (s : State) :
    advance (writeV x b s) = { s with v := s.v.set x b, pc := s.pc + 2 } := rfl

/-- The sum of two bytes is their exact sum modulo 256. -/
theorem byte_add_eq_ofNat (a b : Byte) : a + b = BitVec.ofNat 8 ((a.toNat + b.toNat) % 256) :=
  BitVec.eq_of_toNat_eq (by rw [BitVec.toNat_add, BitVec.toNat_ofNat, Nat.mod_mod])

/-! ### The statements -/

/-- Settles O19: LDI is one register write and an advance. -/
theorem ldiLoadsTheImmediate : Obligations.LdiLoadsTheImmediate := by
  intro x nn s
  rw [exec_ldi, advance_writeV]

/-- Settles O20: ADDI is one register write, of the sum modulo 256, and an advance; no second write reaches VF. -/
theorem addiWrapsWithoutAFlag : Obligations.AddiWrapsWithoutAFlag := by
  intro x nn s
  rw [exec_addi, advance_writeV, readV, byte_add_eq_ofNat]

end Sys2Proof.Proofs
end

