-- ==== Sys2Proof/Proofs/DisplayKeypad.lean ====
section
/-! Proofs about the index, random, display and keypad instructions (42_display_keypad.md). -/

namespace Sys2Proof.Proofs

open Sys2Proof.Machine

/-! ### What the dispatch runs -/

theorem exec_idx (nnn : Addr) (s : State) : exec (.idx nnn) s = .next (advance { s with i := zextAddr nnn }) := rfl

theorem exec_idxo (nnn : Addr) (s : State) :
    exec (.idxo nnn) s = .next (advance { s with i := zextAddr nnn + zextByte (readV 0 s) }) := rfl

/-! ### Addresses as exact numbers -/

/-- The fields of the state after the index register is set and `pc` advances: no other field moves (R10, R17). -/
theorem advance_setIndex (a : Word) (s : State) :
    advance { s with i := a } = { s with i := a, pc := s.pc + 2 } := rfl

@[simp] theorem zextAddr_toNat (nnn : Addr) : (zextAddr nnn).toNat = nnn.toNat :=
  BitVec.toNat_setWidth_of_le (by decide)

@[simp] theorem zextByte_toNat (b : Byte) : (zextByte b).toNat = b.toNat :=
  BitVec.toNat_setWidth_of_le (by decide)

/-- A 12-bit address plus a byte is below 2^16, so the 16-bit sum is the exact one (R90). -/
theorem zextAddr_add_zextByte_toNat (nnn : Addr) (b : Byte) :
    (zextAddr nnn + zextByte b).toNat = nnn.toNat + b.toNat := by
  have haddr := nnn.isLt
  have hbyte := b.isLt
  rw [BitVec.toNat_add, zextAddr_toNat, zextByte_toNat]
  exact Nat.mod_eq_of_lt (by omega)

/-! ### The statements -/

/-- Settles O26: IDX is one write of the index register and an advance. -/
theorem idxSetsTheIndex : Obligations.IdxSetsTheIndex := by
  intro nnn s
  rw [exec_idx, advance_setIndex, zextAddr_eq_ofNat]

/-- Settles O27: IDXO writes the index register and advances as any instruction that is no jump, and its sum does not
overflow. -/
theorem idxoAddsRegisterZero : Obligations.IdxoAddsRegisterZero := by
  intro nnn s
  exact ⟨_, exec_idxo nnn s, advance_setIndex _ s, zextAddr_add_zextByte_toNat nnn (readV 0 s)⟩

end Sys2Proof.Proofs
end

