-- ==== Sys2Proof/Proofs/TimerMemory.lean ====
section
/-! Proofs about the timer, key-wait, index and memory-transfer instructions (43_timer_memory.md). -/

namespace Sys2Proof.Proofs

open Sys2Proof.Machine

/-! ### What the dispatch runs -/

theorem exec_rddt (x : RegNum) (s : State) : exec (.rddt x) s = .next (advance (writeV x s.dt s)) := rfl

theorem exec_wrdt (x : RegNum) (s : State) : exec (.wrdt x) s = .next (advance { s with dt := readV x s }) := rfl

theorem exec_wrst (x : RegNum) (s : State) : exec (.wrst x) s = .next (advance { s with st := readV x s }) := rfl

/-! ### The timers -/

/-- The fields of the state after the delay timer is set and `pc` advances: no other field moves (R17, R22). -/
theorem advance_setDelayTimer (b : Byte) (s : State) :
    advance { s with dt := b } = { s with dt := b, pc := s.pc + 2 } := rfl

/-- The fields of the state after the sound timer is set and `pc` advances: no other field moves (R17, R23). -/
theorem advance_setSoundTimer (b : Byte) (s : State) :
    advance { s with st := b } = { s with st := b, pc := s.pc + 2 } := rfl

/-! ### The statements -/

/-- Settles O33: RDDT is one register write, of the delay timer, and an advance. -/
theorem rddtReadsTheDelayTimer : Obligations.RddtReadsTheDelayTimer := by
  intro x s
  rw [exec_rddt, advance_writeV]

/-- Settles O35: WRDT and WRST each write one timer, with the byte that register X reads, and advance. -/
theorem timerWritesSetTheTimers : Obligations.TimerWritesSetTheTimers := by
  intro x s
  rw [exec_wrdt, exec_wrst, advance_setDelayTimer, advance_setSoundTimer, readV]
  exact ⟨rfl, rfl⟩

end Sys2Proof.Proofs
end

