-- ==== Sys2Proof/Proofs/HostOperations.lean ====
section
/-! Proofs about the operations of the host interface (44_host_operations.md). -/

namespace Sys2Proof.Proofs

open Sys2Proof.Machine

/-! ### Reading the display (R113) -/

/-- The byte that Read display gives for one pixel. -/
def pixelByte (b : Bool) : Byte := if b then 1 else 0

theorem displayRows_eq_map (d : Display) : displayRows d = d.toList.map fun row => row.toList.map pixelByte := rfl

theorem displayRows_length (d : Display) : (displayRows d).length = 32 := by
  rw [displayRows_eq_map, List.length_map, Vector.length_toList]

theorem length_of_mem_displayRows {d : Display} {row : List Byte} (h : row ∈ displayRows d) : row.length = 64 := by
  rw [displayRows_eq_map] at h
  obtain ⟨pixels, -, rfl⟩ := List.mem_map.1 h
  rw [List.length_map, Vector.length_toList]

theorem displayRows_getElem? (d : Display) (y : Fin 32) :
    (displayRows d)[y.val]? = some (d[y].toList.map pixelByte) := by
  simp [displayRows_eq_map]

theorem pixelRow_getElem? (row : Vector Bool 64) (x : Fin 64) :
    (row.toList.map pixelByte)[x.val]? = some (pixelByte row[x]) := by
  simp

/-- Row `y` and then column `x` of the output lead to the pixel (`x`, `y`). -/
theorem displayRows_pixel (d : Display) (x : Fin 64) (y : Fin 32) :
    ((displayRows d)[y.val]?.bind fun row => row[x.val]?) = some (pixelByte (pixel d x y)) := by
  rw [displayRows_getElem?, Option.bind_some, pixelRow_getElem?, pixel]

/-! ### The timers and the keypad (R110, R111) -/

/-- One timer step is the subtraction of natural numbers: it stops at zero instead of wrapping around. -/
theorem decrement_toNat (b : Byte) : (decrement b).toNat = b.toNat - 1 := by
  rw [decrement]
  split
  case isTrue hzero => rw [hzero]; rfl
  case isFalse hpos => bv_omega

theorem keyEdge_of_not_key {k : Nat} (down : Bool) (s : State) (h : 15 < k) :
    keyEdge k down s = .fault (.invalidKeyIndex k) := by
  rw [keyEdge, keyIndex_eq_none.2 h]

theorem keyEdge_of_key (j : Fin 16) (down : Bool) (s : State) :
    keyEdge j.val down s = .done { s with key := s.key.set j down } := by
  rw [keyEdge, keyIndex_of_fin]

/-! ### What `perform` runs -/

theorem perform_tick (s : State) : perform .tick s = .done (tick s) := rfl

theorem perform_keyEdge (k : Nat) (down : Bool) (s : State) : perform (.keyEdge k down) s = keyEdge k down s := rfl

theorem perform_readDisplay (s : State) : perform .readDisplay s = .done s := rfl

/-! ### The statements -/

/-- Settles O49: the output is the display row by row, each pixel as its byte. -/
theorem readDisplayShowsThePixels : Obligations.ReadDisplayShowsThePixels := by
  intro s
  exact ⟨perform_readDisplay s, displayRows_length s.display, fun _ hrow => length_of_mem_displayRows hrow,
    displayRows_pixel s.display⟩

/-- Settles O46: Tick is one timer step of each timer. -/
theorem tickDecrementsBothTimers : Obligations.TickDecrementsBothTimers := by
  intro s
  exact ⟨_, perform_tick s, rfl, decrement_toNat s.dt, decrement_toNat s.st⟩

/-- Settles O47: the key index either names no key, or it names key `j`, whose flag alone is set. -/
theorem keyEdgeSetsOneFlag : Obligations.KeyEdgeSetsOneFlag := by
  intro k down s
  rw [perform_keyEdge]
  constructor
  · exact keyEdge_of_not_key down s
  · rintro j rfl
    exact keyEdge_of_key j down s

end Sys2Proof.Proofs
end

