-- ==== Sys2Proof/Proofs/Exceptions.lean ====
section
/-! Proofs about the faults (60_exceptions.md). -/

namespace Sys2Proof.Proofs

open Sys2Proof.Machine

/-! ### Instructions whose handler makes no check (R123 to R126, R131) -/

/-- Only eight handlers check the call stack, a range of memory or a key index. Each of the others is by its definition a
next state, with no case in which it could end otherwise. -/
theorem exec_completes_of_no_check {i : Instr} (s : State) (hcall : ∀ nnn, i ≠ .call nnn) (hret : i ≠ .ret)
    (hdrw : ∀ x y n, i ≠ .drw x y n)
    (hreg : ∀ x, i ≠ .bcd x ∧ i ≠ .stm x ∧ i ≠ .ldm x ∧ i ≠ .skp x ∧ i ≠ .sknp x) : ∃ t, exec i s = .next t := by
  cases i with
  | call nnn => exact absurd rfl (hcall nnn)
  | ret => exact absurd rfl hret
  | drw x y n => exact absurd rfl (hdrw x y n)
  | bcd x | stm x | ldm x | skp x | sknp x =>
    obtain ⟨hbcd, hstm, hldm, hskp, hsknp⟩ := hreg x
    contradiction
  | cls | jp | se | sne | ser | sner => exact ⟨_, rfl⟩
  | ldi | addi | mov | or | and | xor | add | sub | shr | subn | shl => exact ⟨_, rfl⟩
  | idx | idxo | rnd => exact ⟨_, rfl⟩
  | rddt | waitk | wrdt | wrst | addx | font => exact ⟨_, rfl⟩

/-! ### Operations that cannot fault (R107, R109) -/

theorem perform_construct (s : State) : perform .construct s = .done (construct s) := rfl

theorem perform_step (s : State) : perform .step s = stepOp s := rfl

theorem stepOp_of_blocking {s : State} (h : s.blocking = true) : stepOp s = .blocked := by
  rw [stepOp, if_pos h]

/-! ### The statements -/

/-- Settles O51: the handlers that make no check complete, and a Step tests for a key wait before it fetches. -/
theorem onlyEightInstructionsCanFault : Obligations.OnlyEightInstructionsCanFault := by
  constructor
  · exact fun _ s => exec_completes_of_no_check s
  · intro s
    refine ⟨⟨_, perform_construct s⟩, ⟨_, perform_tick s⟩, ⟨_, perform_readDisplay s⟩, fun hwait => ?_⟩
    rw [perform_step, stepOp_of_blocking hwait]

end Sys2Proof.Proofs
end

section
/-! Proofs about the encoding (30_encoding.md). -/

namespace Sys2Proof.Proofs

/-! ### Decoding what was encoded -/

theorem decodeWord_of_op8 {w : Word} (h : fieldOp w = 0x8) : decodeWord w = decodeAlu w := by
  simp only [decodeWord, h]

theorem decodeWord_of_opE {w : Word} (h : fieldOp w = 0xE) : decodeWord w = decodeKey w := by
  simp only [decodeWord, h]

theorem decodeWord_of_opF {w : Word} (h : fieldOp w = 0xF) : decodeWord w = decodeMisc w := by
  simp only [decodeWord, h]

/-- Settles O1: for each format the fields of the encoded word are the operands, and its selectors lead to the arm of
the decoder that builds the instruction. Only DRW needs well-formedness: its count must fit the 4-bit field. -/
theorem decodeOfEncodedInstruction : Obligations.DecodeOfEncodedInstruction := by
  intro i hwf
  cases i with
  | cls | ret => decide
  | jp | call | idx | idxo => simp [encode, decodeWord, fieldOp_encodeA, fieldNNN_encodeA]
  | se | sne | ldi | addi | rnd => simp [encode, decodeWord, fieldOp_encodeXI, fieldX_encodeXI, fieldNN_encodeXI]
  | ser | sner => simp [encode, decodeWord, fieldOp_encodeXY, fieldX_encodeXY, fieldY_encodeXY, fieldN_encodeXY]
  | mov | or | and | xor | add | sub | shr | subn | shl =>
    simp [encode, decodeWord_of_op8, decodeAlu, fieldOp_encodeXY, fieldX_encodeXY, fieldY_encodeXY, fieldN_encodeXY]
  | drw x y n =>
    have hn : n < 16 := by simpa [Instr.wf] using hwf
    simp [encode, decodeWord, fieldOp_encodeXY, fieldX_encodeXY, fieldY_encodeXY, fieldN_encodeXY, hn]
  | skp | sknp => simp [encode, decodeWord_of_opE, decodeKey, fieldOp_encodeXI, fieldX_encodeXI, fieldNN_encodeXI]
  | rddt | waitk | wrdt | wrst | addx | font | bcd | stm | ldm =>
    simp [encode, decodeWord_of_opF, decodeMisc, fieldOp_encodeXI, fieldX_encodeXI, fieldNN_encodeXI]

/-! ### A word is the encoding of what it decodes to -/

section

variable {w : Word} {op : Nat} (hop : fieldOp w = op)
include hop

theorem encodeA_of_op : encodeA op (fieldNNN w) = w := by
  rw [← hop, encodeA_fields]

theorem encodeXI_of_op : encodeXI op (fieldX w) (fieldNN w) = w := by
  rw [← hop, encodeXI_fields]

/-- Format `XF`: the low byte is the function. -/
theorem encodeXI_of_op_nn {nn : Byte} (hnn : (fieldNN w).toNat = nn.toNat) : encodeXI op (fieldX w) nn = w := by
  rw [← BitVec.eq_of_toNat_eq hnn, encodeXI_of_op hop]

theorem encodeXY_of_op_n {n : Nat} (hn : fieldN w = n) : encodeXY op (fieldX w) (fieldY w) n = w := by
  rw [← hop, ← hn, encodeXY_fields]

end

theorem encode_of_decodeAlu {w : Word} {i : Instr} (hop : fieldOp w = 0x8) (h : decodeAlu w = .ok i) :
    i.wf = true ∧ encode i = w := by
  rw [decodeAlu] at h
  split at h <;> cases h <;> exact ⟨rfl, encodeXY_of_op_n hop ‹_›⟩

theorem encode_of_decodeKey {w : Word} {i : Instr} (hop : fieldOp w = 0xE) (h : decodeKey w = .ok i) :
    i.wf = true ∧ encode i = w := by
  rw [decodeKey] at h
  split at h <;> cases h <;> exact ⟨rfl, encodeXI_of_op_nn hop ‹_›⟩

theorem encode_of_decodeMisc {w : Word} {i : Instr} (hop : fieldOp w = 0xF) (h : decodeMisc w = .ok i) :
    i.wf = true ∧ encode i = w := by
  rw [decodeMisc] at h
  split at h <;> cases h <;> exact ⟨rfl, encodeXI_of_op_nn hop ‹_›⟩

/-- Settles O2: along the arms of the decoder, arm `h_k` being that of high nibble `k - 1`. Each arm reads the fields of
its format, and a word is the encoding of its own fields. -/
theorem encodeOfDecodedWord : Obligations.EncodeOfDecodedWord := by
  intro w i h
  rw [decodeWord] at h
  split at h
  case h_1 =>
    split_ifs at h with hcls hret <;> cases h
    · exact ⟨rfl, hcls.symm⟩
    · exact ⟨rfl, hret.symm⟩
  case h_2 hop | h_3 hop | h_11 hop | h_12 hop => cases h; exact ⟨rfl, encodeA_of_op hop⟩
  case h_4 hop | h_5 hop | h_7 hop | h_8 hop | h_13 hop => cases h; exact ⟨rfl, encodeXI_of_op hop⟩
  case h_6 hop | h_10 hop =>
    split_ifs at h with hn
    cases h
    exact ⟨rfl, encodeXY_of_op_n hop hn⟩
  case h_9 hop => exact encode_of_decodeAlu hop h
  case h_14 hop => cases h; exact ⟨decide_eq_true (fieldN_lt w), encodeXY_of_op_n hop rfl⟩
  case h_15 hop => exact encode_of_decodeKey hop h
  case h_16 hop => exact encode_of_decodeMisc hop h
  case h_17 => cases h

/-! ### The illegal words (R60) -/

theorem decodeAlu_eq_illegal_iff (w : Word) :
    decodeAlu w = .error (.illegal w) ↔ fieldN w ∈ [0x8, 0x9, 0xA, 0xB, 0xC, 0xD, 0xF] := by
  have hlt := fieldN_lt w
  rw [decodeAlu]
  split
  case h_10 => simp only [true_iff, List.mem_cons, List.not_mem_nil, or_false]; grind
  all_goals simp [*]

theorem decodeKey_eq_illegal_iff (w : Word) :
    decodeKey w = .error (.illegal w) ↔ (fieldNN w).toNat ∉ [0x9E, 0xA1] := by
  rw [decodeKey]
  split
  case h_3 => simp only [true_iff, List.mem_cons, List.not_mem_nil, or_false]; grind
  all_goals simp [*]

theorem decodeMisc_eq_illegal_iff (w : Word) :
    decodeMisc w = .error (.illegal w) ↔
      (fieldNN w).toNat ∉ [0x07, 0x0A, 0x15, 0x18, 0x1E, 0x29, 0x33, 0x55, 0x65] := by
  rw [decodeMisc]
  split
  case h_10 => simp only [true_iff, List.mem_cons, List.not_mem_nil, or_false]; grind
  all_goals simp [*]

/-- Settles O4: the classes of high nibbles 8, E and F are the errors of the decoder's second level; at the first level
arm `h_k` is that of high nibble `k - 1`, and the last arm is met by no word. -/
theorem illegalWordsAreThoseListed : Obligations.IllegalWordsAreThoseListed := by
  intro w
  have hlt := fieldOp_lt w
  rw [← decodeAlu_eq_illegal_iff, ← decodeKey_eq_illegal_iff, ← decodeMisc_eq_illegal_iff, decodeWord]
  split
  case h_1 hop => split_ifs <;> simp only [hop] <;> grind
  case h_6 hop | h_10 hop => split_ifs <;> simp [*]
  case h_17 => grind
  all_goals simp [*]

/-- The decoder rejects a word only under its own name. -/
theorem eq_illegal_of_decodeWord_eq_error {w : Word} {e : DecodeError} (h : decodeWord w = .error e) :
    e = .illegal w := by
  simp only [decodeWord, decodeAlu, decodeKey, decodeMisc] at h
  split at h <;> grind

/-! ### Which words select a row of the opcode table (R59) -/

/-- A mask that keeps the high nibble and a lower field selects the words that agree with the row in both. -/
theorem rowSelects_eq_of_and {w bits mask : Word} {low : Nat} (k : Nat)
    (h : (w &&& mask).toNat = fieldOp w * 0x1000 + low) (hlow : low < 0x1000) :
    rowSelects w ⟨k, bits, mask⟩ = decide (fieldOp w = bits.toNat / 0x1000 ∧ low = bits.toNat % 0x1000) := by
  rw [rowSelects, Bool.eq_iff_iff, beq_iff_eq, decide_eq_true_iff, ← BitVec.toNat_inj, h]
  show fieldOp w * 0x1000 + low = bits.toNat ↔ _
  omega

theorem rowSelects_F000 (w bits : Word) (k : Nat) :
    rowSelects w ⟨k, bits, 0xF000#16⟩ = decide (fieldOp w = bits.toNat / 0x1000 ∧ 0 = bits.toNat % 0x1000) :=
  rowSelects_eq_of_and k (by rw [Nat.add_zero]; exact and_F000 w) (by decide)

theorem rowSelects_F00F (w bits : Word) (k : Nat) :
    rowSelects w ⟨k, bits, 0xF00F#16⟩ =
      decide (fieldOp w = bits.toNat / 0x1000 ∧ fieldN w = bits.toNat % 0x1000) :=
  rowSelects_eq_of_and k (and_F00F w) (Nat.lt_trans (fieldN_lt w) (by decide))

theorem rowSelects_F0FF (w bits : Word) (k : Nat) :
    rowSelects w ⟨k, bits, 0xF0FF#16⟩ =
      decide (fieldOp w = bits.toNat / 0x1000 ∧ (fieldNN w).toNat = bits.toNat % 0x1000) :=
  rowSelects_eq_of_and k (and_F0FF w) (Nat.lt_trans (fieldNN w).isLt (by decide))

theorem rowSelects_FFFF (w bits : Word) (k : Nat) : rowSelects w ⟨k, bits, 0xFFFF#16⟩ = decide (w = bits) := by
  have hand : w &&& 0xFFFF#16 = w := BitVec.and_allOnes
  rw [rowSelects, hand, Bool.beq_eq_decide_eq]

/-- An illegal word selects no row: in its class the high nibble, or the function below it, differs from every row. -/
theorem rowSelects_of_illegal {w : Word} (h : decodeWord w = .error (.illegal w)) :
    ∀ r ∈ opcodeTable, rowSelects w r = false := by
  have hcls : w ≠ 0x00E0#16 := by rintro rfl; revert h; decide
  have hret : w ≠ 0x00EE#16 := by rintro rfl; revert h; decide
  rcases (illegalWordsAreThoseListed w).1 h with
    ⟨hop, -⟩ | ⟨hop, hn⟩ | ⟨hop, hn⟩ | ⟨hop, hn⟩ | ⟨hop, hnn⟩ | ⟨hop, hnn⟩ <;>
    simp [opcodeTable, rowSelects_F000, rowSelects_F00F, rowSelects_F0FF, rowSelects_FFFF, hcls, hret, hop]
  -- Left are the rows with the word's high nibble; their functions are legal ones.
  · exact hn
  · exact hn
  · simp only [List.mem_cons, List.not_mem_nil, or_false] at hn
    omega
  · simpa using hnn
  · simpa using hnn

/-! ### One row for each legal word -/

/-- Two different rows differ in a bit that both masks keep. -/
theorem opcodeTable_disjoint :
    ∀ r ∈ opcodeTable, ∀ r' ∈ opcodeTable, r ≠ r' → r.bits &&& r'.mask ≠ r'.bits &&& r.mask := by
  decide

theorem row_eq_of_selects {w : Word} {r r' : OpcodeRow} (hr : r ∈ opcodeTable) (hr' : r' ∈ opcodeTable)
    (h : rowSelects w r = true) (h' : rowSelects w r' = true) : r = r' := by
  by_contra hne
  rw [rowSelects, beq_iff_eq] at h h'
  refine opcodeTable_disjoint r hr r' hr' hne ?_
  rw [← h, ← h', BitVec.and_assoc, BitVec.and_assoc, BitVec.and_comm r.mask]

theorem filter_rowSelects {w : Word} {r : OpcodeRow} (hr : r ∈ opcodeTable) (h : rowSelects w r = true) :
    opcodeTable.filter (rowSelects w) = [r] := by
  have hsame : ∀ r' ∈ opcodeTable, rowSelects w r' = (r' == r) := by
    intro r' hr'
    rw [Bool.eq_iff_iff, beq_iff_eq]
    exact ⟨fun h' => row_eq_of_selects hr' hr h' h, fun heq => heq ▸ h⟩
  have hnodup : opcodeTable.Nodup := by decide
  rw [List.filter_congr hsame, List.filter_beq, List.count_eq_one_of_mem hnodup hr, List.replicate_one]

/-- The lemmas of `RowMatch`, for all instructions. -/
theorem selects_own_row (i : Instr) : ∃ r ∈ opcodeTable, r.number = i.row ∧ rowSelects (encode i) r = true := by
  cases i with
  | cls => exact Laws.RowMatch.cls
  | ret => exact Laws.RowMatch.ret
  | jp nnn => exact Laws.RowMatch.jp nnn
  | call nnn => exact Laws.RowMatch.call nnn
  | se x nn => exact Laws.RowMatch.se x nn
  | sne x nn => exact Laws.RowMatch.sne x nn
  | ser x y => exact Laws.RowMatch.ser x y
  | ldi x nn => exact Laws.RowMatch.ldi x nn
  | addi x nn => exact Laws.RowMatch.addi x nn
  | mov x y => exact Laws.RowMatch.mov x y
  | or x y => exact Laws.RowMatch.or x y
  | and x y => exact Laws.RowMatch.and x y
  | xor x y => exact Laws.RowMatch.xor x y
  | add x y => exact Laws.RowMatch.add x y
  | sub x y => exact Laws.RowMatch.sub x y
  | shr x y => exact Laws.RowMatch.shr x y
  | subn x y => exact Laws.RowMatch.subn x y
  | shl x y => exact Laws.RowMatch.shl x y
  | sner x y => exact Laws.RowMatch.sner x y
  | idx nnn => exact Laws.RowMatch.idx nnn
  | idxo nnn => exact Laws.RowMatch.idxo nnn
  | rnd x nn => exact Laws.RowMatch.rnd x nn
  | drw x y n => exact Laws.RowMatch.drw x y n
  | skp x => exact Laws.RowMatch.skp x
  | sknp x => exact Laws.RowMatch.sknp x
  | rddt x => exact Laws.RowMatch.rddt x
  | waitk x => exact Laws.RowMatch.waitk x
  | wrdt x => exact Laws.RowMatch.wrdt x
  | wrst x => exact Laws.RowMatch.wrst x
  | addx x => exact Laws.RowMatch.addx x
  | font x => exact Laws.RowMatch.font x
  | bcd x => exact Laws.RowMatch.bcd x
  | stm x => exact Laws.RowMatch.stm x
  | ldm x => exact Laws.RowMatch.ldm x

/-- Settles O3: a legal word is the word of its instruction, whose row it selects and no other; an illegal word selects
none. -/
theorem decoderAgreesWithOpcodeTable : Obligations.DecoderAgreesWithOpcodeTable := by
  intro w
  cases hdec : decodeWord w with
  | ok i =>
    obtain ⟨-, henc⟩ := encodeOfDecodedWord w i hdec
    obtain ⟨r, hr, hnum, hsel⟩ := selects_own_row i
    rw [henc] at hsel
    rw [filter_rowSelects hr hsel, List.map_singleton, hnum]
  | error e =>
    rw [eq_illegal_of_decodeWord_eq_error hdec] at hdec
    rw [List.filter_eq_nil_iff.2 (by simpa using rowSelects_of_illegal hdec), List.map_nil]

/-- Settles O5: nine closed words, decoded by evaluation. -/
theorem wordsWrittenOutDecode : Obligations.WordsWrittenOutDecode := by
  unfold Obligations.WordsWrittenOutDecode
  decide

end Sys2Proof.Proofs
end

section
/-! What an instruction does, for all instructions (10_state.md, 60_exceptions.md). -/

namespace Sys2Proof.Proofs

open Sys2Proof.Machine Sys2Proof.Safety

/-! ### What the dispatch runs where the handler makes a check -/

theorem exec_skp (x : RegNum) (s : State) : exec (.skp x) s = skipOnKey x (fun down => down) s := rfl

theorem exec_sknp (x : RegNum) (s : State) : exec (.sknp x) s = skipOnKey x (fun down => !down) s := rfl

/-- The display DRW draws, with the collision it meets (R92). -/
def drawn (x y : RegNum) (n : Nat) (s : State) : Drawing :=
  drawSprite s.mem s.i.toNat n (readV x s).toNat (readV y s).toNat s.display

/-- The state after DRW, when its range lies in memory. -/
def afterDrw (x y : RegNum) (n : Nat) (s : State) : State :=
  advance (writeV vf (flagByte (drawn x y n s).collision) { s with display := (drawn x y n s).display })

theorem exec_drw (x y : RegNum) (n : Nat) (s : State) :
    exec (.drw x y n) s = guardRange s.i.toNat n (.next (afterDrw x y n s)) := rfl

theorem exec_bcd (x : RegNum) (s : State) :
    exec (.bcd x) s = guardRange s.i.toNat 3 (.next (advance (storeAt s.i.toNat (bcdDigits (readV x s)) s))) := rfl

theorem exec_stm (x : RegNum) (s : State) :
    exec (.stm x) s = guardRange s.i.toNat (x.val + 1) (.next (advance (storeAt s.i.toNat (firstRegs x s) s))) := rfl

theorem exec_ldm (x : RegNum) (s : State) :
    exec (.ldm x) s = guardRange s.i.toNat (x.val + 1) (.next (advance (loadRegs x s.i.toNat s))) := rfl

/-! ### The call stack's handlers -/

/-- A RET that goes on takes the entry below the stack pointer. -/
theorem execRet_eq_next {s t : State} (h : execRet s = .next t) :
    ∃ k : Fin 16, s.sp.val = k.val + 1 ∧ t = { s with sp := k.castSucc, pc := s.stack[k] + 2 } := by
  rw [execRet] at h
  split at h
  · simp [raise] at h
  · rename_i entry s' hpop
    obtain ⟨k, hk, rfl, rfl⟩ := popEntry_eq_some hpop
    exact ⟨k, hk, by simpa using h.symm⟩

/-- A CALL that goes on puts its address in the entry at the stack pointer. -/
theorem execCall_eq_next {nnn : Addr} {s t : State} (h : execCall nnn s = .next t) :
    ∃ k : Fin 16, s.sp.val = k.val ∧
      t = { s with stack := s.stack.set k s.pc, sp := k.succ, pc := zextAddr nnn } := by
  rw [execCall] at h
  split at h
  · simp [raise] at h
  · rename_i s' hpush
    obtain ⟨k, hk, rfl⟩ := pushPc_eq_some hpush
    exact ⟨k, hk, by simpa using h.symm⟩

/-! ### Everything an instruction can do to the state -/

/-- The next states of instruction `i` from `s`, by which parts of the state they write. -/
inductive Effect (i : Instr) (s : State) : State → Prop where
  /-- Any skip: only `pc`, by 4 or 2. -/
  | skip (b : Bool) : Effect i s (skipIf b s)
  | jump (nnn : Addr) : Effect i s { s with pc := zextAddr nnn }
  | call (nnn : Addr) (k : Fin 16) (hi : writesStack i = true) :
    Effect i s { s with stack := s.stack.set k s.pc, sp := k.succ, pc := zextAddr nnn }
  | ret (k : Fin 16) (hi : writesStack i = true) : Effect i s { s with sp := k.castSucc, pc := s.stack[k] + 2 }
  /-- One destination register, no flag. -/
  | reg (x : RegNum) (b : Byte) (hi : writesReg i x = true) : Effect i s (advance (writeV x b s))
  /-- A destination register, then VF as a flag. -/
  | regAndFlag (x : RegNum) (b flag : Byte) (hx : writesReg i x = true) (hvf : writesReg i vf = true) :
    Effect i s (advance (writeResultFlag x b flag s))
  | load (x : RegNum) (hi : i = .ldm x) : Effect i s (advance (loadRegs x s.i.toNat s))
  | index (a : Word) (hi : writesIndex i = true) : Effect i s (advance { s with i := a })
  | random (x : RegNum) (nn b : Byte) (hi : i = .rnd x nn) :
    Effect i s (advance (writeV x b { s with draws := s.draws + 1 }))
  | clear (hi : writesDisplay i = true) : Effect i s (advance { s with display := clearDisplay })
  | sprite (d : Display) (flag : Byte) (hd : writesDisplay i = true) (hvf : writesReg i vf = true) :
    Effect i s (advance (writeV vf flag { s with display := d }))
  | delay (x : RegNum) (b : Byte) (hi : i = .wrdt x) : Effect i s (advance { s with dt := b })
  | sound (x : RegNum) (b : Byte) (hi : i = .wrst x) : Effect i s (advance { s with st := b })
  | wait (x : RegNum) (hi : i = .waitk x) :
    Effect i s { s with blocking := true, key := Vector.replicate 16 false }
  /-- BCD and STM, whose whole range lies in memory. -/
  | store (bytes : List Byte) (hrange : s.i.toNat + bytes.length ≤ 4096)
    (hi : (∃ x, i = .bcd x ∧ bytes.length = 3) ∨ ∃ x : RegNum, i = .stm x ∧ bytes.length = x.val + 1) :
    Effect i s (advance (storeAt s.i.toNat bytes s))

/-! ### The inversion of `exec` -/

@[simp] theorem bcdDigits_length (b : Byte) : (bcdDigits b).length = 3 := rfl

@[simp] theorem firstRegs_length (x : RegNum) (s : State) : (firstRegs x s).length = x.val + 1 := by
  have := x.isLt
  rw [firstRegs, List.length_take, Vector.length_toList]
  omega

/-- The inversion of `exec`, once for all instructions: every next state is one of these effects. -/
theorem effect_of_exec {i : Instr} {s t : State} (h : exec i s = .next t) : Effect i s t := by
  cases i with
  | ret =>
    obtain ⟨k, -, rfl⟩ := execRet_eq_next h
    exact .ret k rfl
  | call nnn =>
    obtain ⟨k, -, rfl⟩ := execCall_eq_next h
    exact .call nnn k rfl
  | skp x =>
    rw [exec_skp] at h
    obtain ⟨b, rfl⟩ := skipOnKey_eq_next h
    exact .skip b
  | sknp x =>
    rw [exec_sknp] at h
    obtain ⟨b, rfl⟩ := skipOnKey_eq_next h
    exact .skip b
  | drw x y n =>
    rw [exec_drw] at h
    obtain ⟨-, h⟩ := guardRange_eq_next.1 h
    cases h
    exact .sprite _ _ rfl rfl
  | bcd x =>
    obtain ⟨hrange, h⟩ := guardRange_eq_next.1 h
    cases h
    exact .store (bcdDigits (readV x s)) (by simpa using hrange) (.inl ⟨x, rfl, by simp⟩)
  | stm x =>
    obtain ⟨hrange, h⟩ := guardRange_eq_next.1 h
    cases h
    exact .store (firstRegs x s) (by simpa using hrange) (.inr ⟨x, rfl, by simp⟩)
  | ldm x =>
    obtain ⟨-, h⟩ := guardRange_eq_next.1 h
    cases h
    exact .load x rfl
  | cls => cases h; exact .clear rfl
  | jp nnn => cases h; exact .jump nnn
  | se | sne | ser | sner => cases h; exact .skip _
  | ldi | addi | mov | or | and | xor | rddt => cases h; exact .reg _ _ (by simp [writesReg])
  | add | sub | shr | subn | shl => cases h; exact .regAndFlag _ _ _ (by simp [writesReg]) (by simp [writesReg])
  | idx | idxo | addx | font => cases h; exact .index _ rfl
  | rnd => cases h; exact .random _ _ _ rfl
  | wrdt => cases h; exact .delay _ _ rfl
  | wrst => cases h; exact .sound _ _ rfl
  | waitk => cases h; exact .wait _ rfl

/-! ### The frames -/

/-- Settles O58: each effect that writes a register writes one that `writesReg` names, and reading another gives the old
value. -/
theorem instructionsKeepOtherRegisters : Obligations.InstructionsKeepOtherRegisters := by
  intro i s t r h hr
  show readV r t = readV r s
  have hne : ∀ x, writesReg i x = true → r ≠ x := by
    rintro x hx rfl
    simp [hr] at hx
  cases effect_of_exec h with
  | reg x b hi => simp [readV_writeV, hne x hi]
  | regAndFlag x b flag hx hvf => simp [readV_writeResultFlag, hne x hx, hne vf hvf]
  | load x hi =>
    have hx : ¬ r.val ≤ x.val := by simpa [hi, writesReg] using hr
    simp [readV_loadRegs, hx]
  | random x nn b hi =>
    have hx : r ≠ x := hne x (by simp [hi, writesReg])
    rw [readV_advance, readV_writeV, if_neg hx]
    rfl
  | sprite d flag hd hvf =>
    rw [readV_advance, readV_writeV, if_neg (hne vf hvf)]
    rfl
  | skip | jump | call | ret | index | clear | delay | sound | wait | store => rfl

/-- Settles O59: an effect that touches one of these parts comes with the instruction that may write it. -/
theorem instructionsKeepOtherSpecialRegisters : Obligations.InstructionsKeepOtherSpecialRegisters := by
  intro i s t h
  cases effect_of_exec h with
  | call _ _ hi | ret _ hi | index _ hi => simp [hi]
  | random _ _ _ hi | delay _ _ hi | sound _ _ hi | wait _ hi => simp [hi]
  | skip | jump | reg | regAndFlag | load | clear | sprite | store => simp

/-- Settles O60: only the effect `store` touches the memory, and a read outside its range gives the old byte. -/
theorem instructionsKeepDisplayAndMemory : Obligations.InstructionsKeepDisplayAndMemory := by
  intro i s t h
  cases effect_of_exec h with
  | store bytes hrange hi =>
    have houtside : ∀ a, a < s.i.toNat ∨ s.i.toNat + bytes.length ≤ a →
        (s.mem.storeBytes s.i.toNat bytes).read a = s.mem.read a := fun a => read_storeBytes_outside _ _ a _
    obtain ⟨x, rfl, hlen⟩ | ⟨x, rfl, hlen⟩ := hi <;> rw [hlen] at houtside <;> simpa [writesMemory] using houtside
  | clear hi => simp [hi]
  | sprite _ _ hi => simp [hi]
  | skip | jump | call | ret | reg | regAndFlag | load | index | random | delay | sound | wait => simp

end Sys2Proof.Proofs
end

section
/-! Proofs about the Step, the operations of the host and their faults (44_host_operations.md, 60_exceptions.md). -/

namespace Sys2Proof.Proofs

open Sys2Proof.Machine Sys2Proof.Safety

/-! ### How an instruction ends -/

theorem execRet_eq_fault {s : State} {f : Fault} :
    execRet s = .fault f ↔ s.sp.val = 0 ∧ f = .stackUnderflow s.pc := by
  by_cases h : s.sp.val = 0
  · simp [execRet_of_empty h, h, eq_comm]
  · have hk : s.sp.val = (⟨s.sp.val - 1, by omega⟩ : Fin 16).val + 1 := by simp only; omega
    simp [execRet_of_live hk, h]

theorem execCall_eq_fault {nnn : Addr} {s : State} {f : Fault} :
    execCall nnn s = .fault f ↔ s.sp.val = 16 ∧ f = .stackOverflow s.pc := by
  by_cases h : s.sp.val = 16
  · simp [execCall_of_full nnn h, h, eq_comm]
  · have hk : s.sp.val = (⟨s.sp.val, by omega⟩ : Fin 16).val := rfl
    simp [execCall_of_room nnn hk, h]

/-- A check of `instrFault` names its one fault exactly when its condition holds. -/
theorem ite_eq_some_iff {p : Prop} [Decidable p] {a f : Fault} :
    (if p then some a else none) = some f ↔ p ∧ f = a := by
  simp [eq_comm]

/-- An instruction faults exactly where its one check fails; the handlers of the last three lines make none. -/
theorem exec_eq_fault_iff (i : Instr) (s : State) (f : Fault) : exec i s = .fault f ↔ instrFault i s = some f := by
  cases i with
  | ret => rw [exec_ret, execRet_eq_fault, instrFault, ite_eq_some_iff]
  | call nnn => rw [exec_call, execCall_eq_fault, instrFault, ite_eq_some_iff]
  | drw x y n => rw [exec_drw, guardRange_next_eq_fault, instrFault, ite_eq_some_iff]
  | bcd x => rw [exec_bcd, guardRange_next_eq_fault, instrFault, ite_eq_some_iff]; simp
  | stm x => rw [exec_stm, guardRange_next_eq_fault, instrFault, ite_eq_some_iff]; simp
  | ldm x => rw [exec_ldm, guardRange_next_eq_fault, instrFault, ite_eq_some_iff]; simp
  | skp x => rw [exec_skp, skipOnKey_eq_fault, instrFault, ite_eq_some_iff]; rfl
  | sknp x => rw [exec_sknp, skipOnKey_eq_fault, instrFault, ite_eq_some_iff]; rfl
  | cls | jp | se | sne | ser | sner | idx | idxo | rnd => exact ⟨nofun, nofun⟩
  | ldi | addi | mov | or | and | xor | add | sub | shr | subn | shl => exact ⟨nofun, nofun⟩
  | rddt | waitk | wrdt | wrst | addx | font => exact ⟨nofun, nofun⟩

/-- Every instruction has a meaning (log 28). -/
theorem exec_ne_refused (i : Instr) (s : State) (r : Refusal) : exec i s ≠ .refused r := by
  cases i with
  | ret => rw [exec_ret, execRet]; split <;> simp [raise]
  | call nnn => rw [exec_call, execCall]; split <;> simp [raise]
  | drw x y n => exact guardRange_ne_refused r
  | bcd x => exact guardRange_ne_refused r
  | stm x => exact guardRange_ne_refused r
  | ldm x => exact guardRange_ne_refused r
  | skp x => rw [exec_skp]; exact skipOnKey_ne_refused x _ s r
  | sknp x => rw [exec_sknp]; exact skipOnKey_ne_refused x _ s r
  | cls | jp | se | sne | ser | sner | idx | idxo | rnd => nofun
  | ldi | addi | mov | or | and | xor | add | sub | shr | subn | shl => nofun
  | rddt | waitk | wrdt | wrst | addx | font => nofun

/-! ### The Step (R109, R127) -/

theorem fetchInstr_of_not_inRange {s : State} (h : s.pc.toNat ≥ 0xFFF) :
    fetchInstr s = .error (.memoryAccessOutOfRange s.pc.toNat 2) := by
  rw [fetchInstr, fetchWord, memReadWord_of_not_inRange (by omega)]

theorem fetchInstr_of_decode_error {s : State} {w : Word} {e : DecodeError} (hw : fetchWord s = .ok w)
    (h : decodeWord w = .error e) : fetchInstr s = .error (.unknownOpcode w s.pc) := by
  simp only [fetchInstr, hw, h]

theorem step_of_fetchInstr_error {s : State} {f : Fault} (hb : s.blocking = false) (h : fetchInstr s = .error f) :
    step s = .fault f := by
  simp [step, hb, h, raise]

theorem step_ne_refused (s : State) (r : Refusal) : step s ≠ .refused r := by
  rw [step]
  split
  · simp [stepBlocked]
  · split
    · simp [raise]
    · exact exec_ne_refused _ s r

/-- Settles O6: the two conditions are those of a fetch, and a Step outside a key wait runs what it fetched. -/
theorem stepRunsTheDecodedInstruction : Obligations.StepRunsTheDecodedInstruction := by
  intro s i hb hpc hdec
  exact step_of_fetchInstr hb (fetchInstr_eq_ok.2 ⟨hpc, hdec⟩)

/-- Settles O7: the blocking test, the fetch and the decode each end the Step before a handler runs. -/
theorem stepStopsBeforeTheHandler : Obligations.StepStopsBeforeTheHandler := by
  intro s
  refine ⟨fun hwait => ⟨step_of_blocking hwait, stepOp_of_blocking hwait⟩, fun hb hpc => ?_, ?_⟩
  · exact step_of_fetchInstr_error hb (fetchInstr_of_not_inRange hpc)
  · rintro w hb hpc rfl hdec
    exact step_of_fetchInstr_error hb (fetchInstr_of_decode_error (fetchWord_of_inRange (by omega)) hdec)

/-- Settles O18: JP writes only `pc`, here with the value it has. -/
theorem selfJumpChangesNothing : Obligations.SelfJumpChangesNothing := by
  rintro s ⟨hb, nnn, hfetch, hself⟩
  rw [step_of_fetchInstr hb hfetch, exec_jp, hself]

/-- Settles O17: the call left its address in the entry that the return pops, and RET does not read `pc`. -/
theorem callThenReturnResumes : Obligations.CallThenReturnResumes := by
  intro nnn s t pc h
  obtain ⟨k, hk, rfl⟩ := execCall_eq_next h
  have hsp : s.sp = k.castSucc := Fin.ext hk
  rw [exec_ret, execRet_of_live (k := k) rfl]
  simp [hsp]

/-! ### A word placed at `pc` (log 5) -/

theorem decodeWord_of_decodeTableWord {w : Nat} {i : Instr} (h : decodeTableWord 16 w = some i) :
    decodeWord (tableWord 16 w) = .ok i := by
  rw [decodeTableWord, ← List.append_nil (wordBytes _), decode_wordBytes] at h
  cases hdec : decodeWord (tableWord 16 w) with
  | ok j => rw [hdec] at h; simpa using h
  | error e => simp [hdec] at h

theorem withFetchWord_pc_le (s : State) (w : Nat) : (s.withFetchWord 16 w).pc.toNat ≤ 0xFFE := by
  simp only [State.withFetchWord, Config.memSize]
  split
  · omega
  · decide

/-- The fetch reads both bytes of the placed word through the store. -/
theorem fetchWord_withFetchWord (s : State) (w : Nat) :
    fetchWord (s.withFetchWord 16 w) = .ok (tableWord 16 w) := by
  rw [fetchWord_after_store (withFetchWord_pc_le s w) (m := s.mem) rfl]
  simp [byteAfterStore, wordBytes, State.withFetchWord, wordOfBytes_wordBytes]

/-- Settles O9: the placed word is the word fetched, and no key wait is left. -/
theorem placedWordRunsNext : Obligations.PlacedWordRunsNext := by
  intro s w i h
  refine step_of_fetchInstr rfl ?_
  simp only [fetchInstr, fetchWord_withFetchWord, decodeWord_of_decodeTableWord h]

/-! ### How each operation ends (R108, R109, R112) -/

theorem stepOp_of_next {s t : State} (hb : s.blocking = false) (h : step s = .next t) : stepOp s = .done t := by
  simp [stepOp, hb, h]

theorem stepOp_of_fault {s : State} {f : Fault} (hb : s.blocking = false) (h : step s = .fault f) :
    stepOp s = .fault f := by
  simp [stepOp, hb, h]

/-- A Step is Blocked in a key wait, and else ends as `step` does. -/
theorem stepOp_cases (s : State) :
    (s.blocking = true ∧ stepOp s = .blocked) ∨
    (s.blocking = false ∧ ∃ t, step s = .next t ∧ stepOp s = .done t) ∨
    (s.blocking = false ∧ ∃ f, step s = .fault f ∧ stepOp s = .fault f) := by
  cases hb : s.blocking
  · cases hstep : step s with
    | next t => exact .inr (.inl ⟨rfl, t, rfl, stepOp_of_next hb hstep⟩)
    | fault f => exact .inr (.inr ⟨rfl, f, rfl, stepOp_of_fault hb hstep⟩)
    | refused r => exact absurd hstep (step_ne_refused s r)
  · exact .inl ⟨rfl, stepOp_of_blocking hb⟩

theorem perform_load (bytes : List Byte) (s : State) : perform (.load bytes) s = loadProgram bytes s := rfl

theorem perform_completeWait (k : Nat) (s : State) : perform (.completeWait k) s = completeWait k s := rfl

theorem loadProgram_of_long {bytes : List Byte} (s : State) (h : bytes.length > 3584) :
    loadProgram bytes s = .fault (.memoryAccessOutOfRange 0x200 bytes.length) := by
  rw [loadProgram, if_pos h]

theorem loadProgram_of_fits {bytes : List Byte} (s : State) (h : bytes.length ≤ 3584) :
    loadProgram bytes s = .done (storeAt 0x200 bytes s) := by
  rw [loadProgram, if_neg (Nat.not_lt.2 h)]

theorem completeWait_of_not_key {k : Nat} (s : State) (h : k > 15) :
    completeWait k s = .fault (.invalidKeyIndex k) := by
  rw [completeWait, keyIndex_eq_none.2 h]

theorem keyIndex_of_le {k : Nat} (h : k ≤ 15) : keyIndex k = some ⟨k, by omega⟩ :=
  keyIndex_eq_some.2 rfl

theorem completeWait_of_not_waiting {k : Nat} {s : State} (hk : k ≤ 15) (h : s.blocking = false) :
    completeWait k s = .ignored := by
  simp [completeWait, keyIndex_of_le hk, h]

theorem completeWait_of_waiting {k : Nat} {s : State} {w : Word} (hk : k ≤ 15) (h : s.blocking = true)
    (hw : fetchWord s = .ok w) : completeWait k s =
      .done (advance { writeV (fieldX w) (BitVec.ofNat 8 k) s with blocking := false }) := by
  simp [completeWait, keyIndex_of_le hk, h, hw]

theorem completeWait_of_fetch_error {k : Nat} {s : State} {f : Fault} (hk : k ≤ 15) (h : s.blocking = true)
    (hw : fetchWord s = .error f) : completeWait k s = .fault f := by
  simp [completeWait, keyIndex_of_le hk, h, hw]

theorem fetchWord_of_not_inRange {s : State} (h : s.pc.toNat ≥ 0xFFF) :
    fetchWord s = .error (.memoryAccessOutOfRange s.pc.toNat 2) := memReadWord_of_not_inRange (by omega)

/-- Settles O48: the four ways in which Complete wait ends. -/
theorem completeWaitWritesTheTarget : Obligations.CompleteWaitWritesTheTarget := by
  intro k s
  rw [perform_completeWait]
  refine ⟨completeWait_of_not_key s, completeWait_of_not_waiting, fun hk hwait hpc => ?_, fun hk hwait hpc => ?_⟩
  · exact completeWait_of_waiting hk hwait (fetchWord_of_inRange (by omega))
  · exact completeWait_of_fetch_error hk hwait (fetchWord_of_not_inRange hpc)

theorem keyEdge_of_le {k : Nat} (down : Bool) (s : State) (h : k ≤ 15) :
    keyEdge k down s = .done { s with key := s.key.set k down } :=
  keyEdge_of_key ⟨k, by omega⟩ down s

/-- How Complete wait ends, in the order of its checks (R112, R127). -/
theorem completeWait_cases (k : Nat) (s : State) :
    (k > 15 ∧ completeWait k s = .fault (.invalidKeyIndex k)) ∨
    (k ≤ 15 ∧ s.blocking = false ∧ completeWait k s = .ignored) ∨
    (k ≤ 15 ∧ s.blocking = true ∧ s.pc.toNat ≥ 0xFFF ∧
      completeWait k s = .fault (.memoryAccessOutOfRange s.pc.toNat 2)) ∨
    (k ≤ 15 ∧ s.blocking = true ∧ s.pc.toNat < 0xFFF ∧ ∃ w, fetchWord s = .ok w ∧ completeWait k s =
      .done (advance { writeV (fieldX w) (BitVec.ofNat 8 k) s with blocking := false })) := by
  rcases Nat.lt_or_ge 15 k with hk | hk
  · exact .inl ⟨hk, completeWait_of_not_key s hk⟩
  cases hb : s.blocking
  · exact .inr (.inl ⟨hk, rfl, completeWait_of_not_waiting hk hb⟩)
  rcases Nat.lt_or_ge s.pc.toNat 0xFFF with hpc | hpc
  · have hw := fetchWord_of_inRange (s := s) (by omega)
    exact .inr (.inr (.inr ⟨hk, rfl, hpc, _, hw, completeWait_of_waiting hk hb hw⟩))
  · exact .inr (.inr (.inl ⟨hk, rfl, hpc, completeWait_of_fetch_error hk hb (fetchWord_of_not_inRange hpc)⟩))

/-- Settles O10: by the operation, from the ways in which each can end. -/
theorem everyOperationEndsAsTheSpecSays : Obligations.EveryOperationEndsAsTheSpecSays := by
  intro op s
  suffices h : (∀ r, perform op s ≠ .refused r) ∧ (perform op s = .blocked ↔ op = .step ∧ s.blocking = true) ∧
      (perform op s = .ignored ↔ ∃ k, k ≤ 15 ∧ op = .completeWait k ∧ s.blocking = false) from
    ⟨h.1, step_ne_refused s, h.2⟩
  cases op with
  | construct => simp [perform_construct]
  | tick => simp [perform_tick]
  | readDisplay => simp [perform_readDisplay]
  | load bytes =>
    rw [perform_load]
    rcases Nat.lt_or_ge 3584 bytes.length with h | h
    · simp [loadProgram_of_long s h]
    · simp [loadProgram_of_fits s h]
  | step =>
    rw [perform_step]
    rcases stepOp_cases s with ⟨hb, h⟩ | ⟨hb, t, -, h⟩ | ⟨hb, f, -, h⟩ <;> simp [h, hb]
  | keyEdge k down =>
    rw [perform_keyEdge]
    rcases Nat.lt_or_ge 15 k with h | h
    · simp [keyEdge_of_not_key down s h]
    · simp [keyEdge_of_le down s h]
  | completeWait k =>
    rw [perform_completeWait]
    rcases completeWait_cases k s with ⟨hk, h⟩ | ⟨hk, hb, h⟩ | ⟨hk, hb, -, h⟩ | ⟨hk, hb, -, w, -, h⟩ <;>
      simp [*]

/-! ### The faults of the operations (R121 to R128) -/

/-- Outside a key wait a Step faults in the order of R127: the fetch, the decode, the handler's own check. -/
theorem step_eq_fault_iff {s : State} {f : Fault} (hb : s.blocking = false) :
    step s = .fault f ↔ opFault .step s = some f := by
  rw [opFault, hb]
  by_cases hpc : s.pc.toNat ≥ 0xFFF
  · simp [step_of_fetchInstr_error hb (fetchInstr_of_not_inRange hpc), hpc]
  · have hw := fetchWord_of_inRange (s := s) (by omega)
    simp only [Bool.false_eq_true, if_false, if_neg hpc]
    cases hdec : decodeWord (wordOfBytes (s.mem.read s.pc.toNat) (s.mem.read (s.pc.toNat + 1))) with
    | error e => simp [step_of_fetchInstr_error hb (fetchInstr_of_decode_error hw hdec)]
    | ok i =>
      rw [step_of_fetchInstr hb (fetchInstr_eq_ok.2 ⟨by omega, hdec⟩)]
      exact exec_eq_fault_iff i s f

theorem perform_eq_fault_iff (op : HostOp) (s : State) (f : Fault) :
    perform op s = .fault f ↔ opFault op s = some f := by
  cases op with
  | construct => simp [perform_construct, opFault]
  | tick => simp [perform_tick, opFault]
  | readDisplay => simp [perform_readDisplay, opFault]
  | load bytes =>
    rw [perform_load]
    rcases Nat.lt_or_ge 3584 bytes.length with h | h
    · simp [loadProgram_of_long s h, opFault, h]
    · simp [loadProgram_of_fits s h, opFault, h]
  | step =>
    rw [perform_step]
    rcases stepOp_cases s with ⟨hb, h⟩ | ⟨hb, t, ht, h⟩ | ⟨hb, g, hg, h⟩
    · simp [h, opFault, hb]
    · simp [h, ← step_eq_fault_iff hb, ht]
    · simp [h, ← step_eq_fault_iff hb, hg]
  | keyEdge k down =>
    rw [perform_keyEdge]
    rcases Nat.lt_or_ge 15 k with h | h
    · simp [keyEdge_of_not_key down s h, opFault, h]
    · simp [keyEdge_of_le down s h, opFault, h]
  | completeWait k =>
    rw [perform_completeWait]
    rw [opFault]
    rcases completeWait_cases k s with ⟨hk, h⟩ | ⟨hk, hb, h⟩ | ⟨hk, hb, hpc, h⟩ | ⟨hk, hb, hpc, w, -, h⟩
    · simp [h, hk]
    · simp [h, Nat.not_lt.2 hk, hb]
    · simp [h, Nat.not_lt.2 hk, hb, hpc]
    · simp [h, Nat.not_lt.2 hk, hb, Nat.not_le.2 hpc]

/-- Settles O50: the faults are those of the two tables, and an operation that faults leaves the state as it was. -/
theorem faultsAreExactlyTheSpecsAndChangeNothing : Obligations.FaultsAreExactlyTheSpecsAndChangeNothing := by
  refine ⟨exec_eq_fault_iff, perform_eq_fault_iff, fun op s f h => ?_⟩
  have hafter : (perform op s).stateAfter s = s := by rw [h]; rfl
  rw [hafter]
  exact ⟨rfl, h⟩

/-! ### Everything an operation that is Done can do -/

/-- The states in which an operation is Done, by operation. -/
inductive OpEffect (s : State) : HostOp → State → Prop where
  | construct : OpEffect s .construct (construct s)
  | load (bytes : List Byte) (hlen : bytes.length ≤ 3584) : OpEffect s (.load bytes) (storeAt 0x200 bytes s)
  | step (i : Instr) (t : State) (hb : s.blocking = false) (hfetch : fetchInstr s = .ok i)
    (hexec : exec i s = .next t) : OpEffect s .step t
  | tick : OpEffect s .tick (tick s)
  | keyEdge (j : Fin 16) (down : Bool) : OpEffect s (.keyEdge j down) { s with key := s.key.set j down }
  | completeWait (k : Nat) (w : Word) (hb : s.blocking = true) (hw : fetchWord s = .ok w) :
    OpEffect s (.completeWait k) (advance { writeV (fieldX w) (BitVec.ofNat 8 k) s with blocking := false })
  | readDisplay : OpEffect s .readDisplay s

theorem opEffect_of_perform {op : HostOp} {s t : State} (h : perform op s = .done t) : OpEffect s op t := by
  cases op with
  | construct => cases h; exact .construct
  | tick => cases h; exact .tick
  | readDisplay => cases h; exact .readDisplay
  | load bytes =>
    rw [perform_load] at h
    rcases Nat.lt_or_ge 3584 bytes.length with hlen | hlen
    · simp [loadProgram_of_long s hlen] at h
    · rw [loadProgram_of_fits s hlen] at h
      cases h
      exact .load bytes hlen
  | step =>
    rw [perform_step] at h
    rcases stepOp_cases s with ⟨-, hop⟩ | ⟨hb, u, hu, hop⟩ | ⟨-, f, -, hop⟩ <;> rw [hop] at h <;> cases h
    rcases step_eq_next hu with ⟨hwait, -⟩ | ⟨-, i, hfetch, hexec⟩
    · simp [hb] at hwait
    · exact .step i _ hb hfetch hexec
  | keyEdge k down =>
    rw [perform_keyEdge] at h
    rcases Nat.lt_or_ge 15 k with hk | hk
    · simp [keyEdge_of_not_key down s hk] at h
    · rw [keyEdge_of_le down s hk] at h
      cases h
      exact .keyEdge ⟨k, by omega⟩ down
  | completeWait k =>
    rw [perform_completeWait] at h
    rcases completeWait_cases k s with ⟨-, hop⟩ | ⟨-, -, hop⟩ | ⟨-, -, -, hop⟩ | ⟨-, hb, -, w, hw, hop⟩ <;>
      rw [hop] at h <;> cases h
    exact .completeWait k w hb hw

/-- Settles O57: Load program, Tick, Keypad edge and Read display keep `blocking`; a Step is Done only outside a key
wait, and of the effects of an instruction only that of WAITK sets the flag. -/
theorem runStateChangesOnlyByWaitkAndCompletion : Obligations.RunStateChangesOnlyByWaitkAndCompletion := by
  intro op s t h
  cases opEffect_of_perform h with
  | step i t hb hfetch hexec =>
    refine ⟨fun _ ht => ⟨rfl, ?_⟩, by simp [hb]⟩
    cases effect_of_exec hexec with
    | wait x hi => exact ⟨x, hi ▸ hfetch⟩
    | _ => simp [hb] at ht
  | construct => exact ⟨fun _ => nofun, fun _ _ => .inl rfl⟩
  | completeWait k w => exact ⟨fun _ => nofun, fun _ _ => .inr ⟨k, rfl⟩⟩
  | load | tick | keyEdge | readDisplay => simp +contextual

end Sys2Proof.Proofs
end

section
/-! Proofs about the invariant and the runs of the engine (10_state.md R18, R20; 44_host_operations.md). -/

namespace Sys2Proof.Proofs

open Sys2Proof.Machine Sys2Proof.Safety

/-! ### The invariant after an update -/

/-- The next addresses after a fetchable one do not wrap and stay within the bound of `pc` (R18). -/
theorem fetchable_add_two_le {a : Word} (h : a.toNat ≤ 0xFFE) : (a + 2).toNat ≤ 0x1002 := by
  bv_omega

theorem fetchable_add_skip_le {a : Word} (h : a.toNat ≤ 0xFFE) (b : Bool) :
    (a + if b then 4 else 2).toNat ≤ 0x1002 := by
  cases b <;> simp <;> bv_omega

/-- Where the memory, the stack and `blocking` stay, only the bound of `pc` is left to show. -/
theorem inv_of_kept {s t : State} (hs : Inv s) (hmem : t.mem = s.mem) (hstack : t.stack = s.stack)
    (hb : t.blocking = false) (hpc : t.pc.toNat ≤ 0x1002) : Inv t where
  mem_wf := hmem ▸ hs.mem_wf
  pc_le := hpc
  stack_le := hstack ▸ hs.stack_le
  wait_pc hwait := by simp [hb] at hwait

theorem inv_storeAt {base : Nat} {bytes : List Byte} {s : State} (hs : Inv s) (h : base + bytes.length ≤ 4096) :
    Inv (storeAt base bytes s) where
  mem_wf := wf_storeBytes hs.mem_wf (.inr h)
  pc_le := hs.pc_le
  stack_le := hs.stack_le
  wait_pc := hs.wait_pc

/-- An advance from a fetchable `pc` after a write to another part of the state. -/
theorem inv_advance_of_kept {s t : State} (hs : Inv s) (hmem : t.mem = s.mem) (hstack : t.stack = s.stack)
    (hpc : t.pc = s.pc) (hb : s.blocking = false) (hbt : t.blocking = s.blocking) (hfetch : s.pc.toNat ≤ 0xFFE) :
    Inv (advance t) :=
  inv_of_kept hs hmem hstack (hbt.trans hb) (by rw [advance_pc, hpc]; exact fetchable_add_two_le hfetch)

/-- An instruction fetched outside a key wait keeps the invariant. -/
theorem inv_of_effect {i : Instr} {s t : State} (hs : Inv s) (hb : s.blocking = false) (hpc : s.pc.toNat ≤ 0xFFE)
    (h : Effect i s t) : Inv t := by
  cases h with
  | skip b => exact inv_of_kept hs rfl rfl hb (fetchable_add_skip_le hpc b)
  | jump nnn =>
    refine inv_of_kept hs rfl rfl hb ?_
    show (zextAddr nnn).toNat ≤ 0x1002
    have := nnn.isLt
    rw [zextAddr_toNat]
    omega
  | call nnn k =>
    have hnnn := nnn.isLt
    refine ⟨hs.mem_wf, ?_, fun j => ?_, by simp [hb]⟩
    · show (zextAddr nnn).toNat ≤ 0x1002
      rw [zextAddr_toNat]
      omega
    · have hj := hs.stack_le j
      simp only [Fin.getElem_fin, Vector.getElem_set] at hj ⊢
      split
      · exact hpc
      · exact hj
  | ret k => exact inv_of_kept hs rfl rfl hb (fetchable_add_two_le (hs.stack_le k))
  | wait => exact ⟨hs.mem_wf, hs.pc_le, hs.stack_le, fun _ => hpc⟩
  | store bytes hrange => exact inv_advance_of_kept (inv_storeAt hs hrange) rfl rfl rfl hb rfl hpc
  | reg | regAndFlag | load | index | random | clear | sprite | delay | sound =>
    exact inv_advance_of_kept hs (by simp) (by simp) (by simp) hb (by simp) hpc

theorem inv_of_exec {i : Instr} {s t : State} (hs : Inv s) (hb : s.blocking = false) (hfetch : fetchInstr s = .ok i)
    (h : exec i s = .next t) : Inv t := by
  obtain ⟨hpc, -⟩ := fetchInstr_eq_ok.1 hfetch
  exact inv_of_effect hs hb (by omega) (effect_of_exec h)

/-- Settles O53: a Step is nothing in a key wait, or an instruction fetched outside one. -/
theorem everyStepKeepsTheInvariant : Obligations.EveryStepKeepsTheInvariant := by
  intro s t hs h
  rcases step_eq_next h with ⟨-, rfl⟩ | ⟨hb, i, hfetch, hexec⟩
  · exact hs
  · exact inv_of_exec hs hb hfetch hexec

/-- Settles O52: no cell is listed, `pc` is 0x200, the stack entries are 0, and no wait is in progress. -/
theorem invariantHoldsAfterReset : Obligations.InvariantHoldsAfterReset := by
  intro draws
  exact ⟨rfl, by show (0x200#16).toNat ≤ 0x1002; decide, fun k => by simp [State.reset], nofun⟩

/-- Settles O54: by the operation. The instruction of a Step was fetched, Load program stores inside memory, and
Complete wait advances from the fetchable `pc` that the invariant gives. -/
theorem everyOperationKeepsTheInvariant : Obligations.EveryOperationKeepsTheInvariant := by
  intro op s t hs h
  cases opEffect_of_perform h with
  | construct => exact invariantHoldsAfterReset s.draws
  | load bytes hlen => exact inv_storeAt hs (by omega)
  | step i t hb hfetch hexec => exact inv_of_exec hs hb hfetch hexec
  | tick | keyEdge => exact ⟨hs.mem_wf, hs.pc_le, hs.stack_le, hs.wait_pc⟩
  | completeWait k w hb => exact inv_of_kept hs rfl rfl rfl (fetchable_add_two_le (hs.wait_pc hb))
  | readDisplay => exact hs

/-! ### Runs -/

theorem inv_stateAfter {op : HostOp} {s : State} (hs : Inv s) : Inv ((perform op s).stateAfter s) := by
  cases h : perform op s with
  | done t => exact everyOperationKeepsTheInvariant op s t hs h
  | blocked | ignored | fault | refused => exact hs

theorem inv_of_reachable {s : State} (h : Reachable s) : Inv s := by
  induction h with
  | construct draws => exact invariantHoldsAfterReset draws
  | perform s op _ hs => exact inv_stateAfter hs

/-- Settles O55: the invariant bounds `pc`, and in a key wait the fetch of Complete wait succeeds. -/
theorem reachableStatesKeepPcInBounds : Obligations.ReachableStatesKeepPcInBounds := by
  intro s h
  have hs := inv_of_reachable h
  refine ⟨hs.pc_le, fun hwait k hk => ?_⟩
  have hpc := hs.wait_pc hwait
  exact ⟨_, completeWait_of_waiting hk hwait (fetchWord_of_inRange (by omega)), rfl⟩

/-- Settles O56: by induction on the operations; one that is not Done leaves the state, and a fault ends the run. -/
theorem runsWithoutAFaultKeepTheInvariant : Obligations.RunsWithoutAFaultKeepTheInvariant := by
  intro ops
  induction ops with
  | nil =>
    intro s t hs h
    cases h
    exact hs
  | cons op rest ih =>
    intro s t hs h
    rw [runOps] at h
    split at h
    case h_1 u hop => exact ih u t (everyOperationKeepsTheInvariant op s u hs hop) h
    case h_2 | h_3 => exact ih s t hs h
    case h_4 | h_5 => cases h

end Sys2Proof.Proofs
end

section
/-! Proofs about flags, skips, the random source and the index register (41_alu.md, 42_display_keypad.md,
43_timer_memory.md). -/

namespace Sys2Proof.Proofs

open Sys2Proof.Machine

/-! ### Copy and logic -/

theorem exec_mov (x y : RegNum) (s : State) : exec (.mov x y) s = .next (advance (writeV x (readV y s) s)) := rfl

theorem exec_or (x y : RegNum) (s : State) :
    exec (.or x y) s = .next (advance (writeV x (readV x s ||| readV y s) s)) := rfl

theorem exec_and (x y : RegNum) (s : State) :
    exec (.and x y) s = .next (advance (writeV x (readV x s &&& readV y s) s)) := rfl

theorem exec_xor (x y : RegNum) (s : State) :
    exec (.xor x y) s = .next (advance (writeV x (readV x s ^^^ readV y s) s)) := rfl

/-- Settles O21: each of the four is one register write and an advance. -/
theorem copyAndLogicWriteOnlyX : Obligations.CopyAndLogicWriteOnlyX := by
  intro x y s
  simp only [exec_mov, exec_or, exec_and, exec_xor, advance_writeV, readV, and_self]

/-! ### Results and flags as exact numbers -/

/-- The fields of the state after a result and its flag are written and `pc` advances: no other field moves (R75). -/
theorem advance_writeResultFlag (x : RegNum) (r flag : Byte) (s : State) :
    advance (writeResultFlag x r flag s) = { s with v := (s.v.set x r).set vf flag, pc := s.pc + 2 } := rfl

theorem flagByte_decide (p : Prop) [Decidable p] : flagByte (decide p) = if p then 1 else 0 := by
  simp [flagByte]

/-- The difference of two bytes is their exact difference modulo 256. -/
theorem byte_sub_eq_ofInt (a b : Byte) : a - b = BitVec.ofInt 8 ((a.toNat : Int) - (b.toNat : Int)) := by
  have ha := a.isLt
  have hb := b.isLt
  apply BitVec.eq_of_toNat_eq
  rw [BitVec.toNat_sub, BitVec.toNat_ofInt]
  omega

theorem byte_shiftRight_one (a : Byte) : a >>> 1 = BitVec.ofNat 8 (a.toNat / 2) := by
  apply BitVec.eq_of_toNat_eq
  simp [Nat.shiftRight_eq_div_pow]
  omega

theorem byte_shiftLeft_one (a : Byte) : a <<< 1 = BitVec.ofNat 8 (a.toNat * 2 % 256) := by
  apply BitVec.eq_of_toNat_eq
  simp [Nat.shiftLeft_eq]

theorem lowBitFlag_eq (a : Byte) : lowBitFlag a = BitVec.ofNat 8 (a.toNat % 2) := by
  rw [lowBitFlag, flagByte, BitVec.getLsbD, Nat.testBit_zero]
  rcases Nat.mod_two_eq_zero_or_one a.toNat with h | h <;> simp [h]

theorem highBitFlag_eq (a : Byte) : highBitFlag a = BitVec.ofNat 8 (a.toNat / 128) := by
  have := a.isLt
  have h : a.toNat / 128 = 0 ∨ a.toNat / 128 = 1 := by omega
  rw [highBitFlag, flagByte, BitVec.getLsbD, Nat.testBit_eq_decide_div_mod_eq]
  rcases h with h | h <;> simp [h]

/-! ### The five instructions with a result and a flag (R82 to R86) -/

theorem exec_add (x y : RegNum) (s : State) : exec (.add x y) s = .next (advance (writeResultFlag x
    (readV x s + readV y s) (carryFlag (readV x s) (readV y s)) s)) := rfl

theorem exec_sub (x y : RegNum) (s : State) : exec (.sub x y) s = .next (advance (writeResultFlag x
    (readV x s - readV y s) (noBorrowFlag (readV x s) (readV y s)) s)) := rfl

theorem exec_subn (x y : RegNum) (s : State) : exec (.subn x y) s = .next (advance (writeResultFlag x
    (readV y s - readV x s) (noBorrowFlag (readV y s) (readV x s)) s)) := rfl

theorem exec_shr (x y : RegNum) (s : State) : exec (.shr x y) s = .next (advance (writeResultFlag x
    (readV x s >>> 1) (lowBitFlag (readV x s)) s)) := rfl

theorem exec_shl (x y : RegNum) (s : State) : exec (.shl x y) s = .next (advance (writeResultFlag x
    (readV x s <<< 1) (highBitFlag (readV x s)) s)) := rfl

/-- Settles O22: the sum and its carry, both from the old registers. -/
theorem addWritesTheSumThenTheCarry : Obligations.AddWritesTheSumThenTheCarry := by
  intro x y s
  rw [exec_add, advance_writeResultFlag, byte_add_eq_ofNat, carryFlag, flagByte_decide, readV, readV]

/-- Settles O23: SUBN is SUB with the operands exchanged. -/
theorem subtractionsWriteTheDifferenceThenNoBorrow : Obligations.SubtractionsWriteTheDifferenceThenNoBorrow := by
  intro x y s
  constructor
  · rw [exec_sub, advance_writeResultFlag, byte_sub_eq_ofInt, noBorrowFlag, flagByte_decide, readV, readV]
  · rw [exec_subn, advance_writeResultFlag, byte_sub_eq_ofInt, noBorrowFlag, flagByte_decide, readV, readV]

/-- Settles O24: the results and the bits shifted out, as numbers; `Y` is in none of them. -/
theorem shiftsWriteTheResultThenTheBitOut : Obligations.ShiftsWriteTheResultThenTheBitOut := by
  intro x y s
  constructor
  · rw [exec_shr, advance_writeResultFlag, byte_shiftRight_one, lowBitFlag_eq, readV]
  · rw [exec_shl, advance_writeResultFlag, byte_shiftLeft_one, highBitFlag_eq, readV]

/-! ### VF as a flag -/

theorem flagByte_eq_zero_or_one (b : Bool) : flagByte b = 0 ∨ flagByte b = 1 := by
  cases b
  · exact .inl rfl
  · exact .inr rfl

/-- The flag is written last, so VF holds it whatever register the result goes to (R75). -/
theorem readV_vf_writeResultFlag (x : RegNum) (r : Byte) (flag : Byte) (s : State) :
    readV vf (advance (writeResultFlag x r flag s)) = flag := by
  rw [readV_advance, readV_writeResultFlag, if_pos rfl]

/-- Settles O25: what each of the six writes last is a flag in VF. -/
theorem flagWritersLeaveZeroOrOne : Obligations.FlagWritersLeaveZeroOrOne := by
  intro x y n i s t hi h
  suffices hflag : ∃ b, readV vf t = flagByte b by
    obtain ⟨b, hb⟩ := hflag
    show readV vf t = 0 ∨ readV vf t = 1
    rw [hb]
    exact flagByte_eq_zero_or_one b
  simp only [List.mem_cons, List.not_mem_nil, or_false] at hi
  rcases hi with rfl | rfl | rfl | rfl | rfl | rfl
  · cases h; exact ⟨_, readV_vf_writeResultFlag x _ _ s⟩
  · cases h; exact ⟨_, readV_vf_writeResultFlag x _ _ s⟩
  · cases h; exact ⟨_, readV_vf_writeResultFlag x _ _ s⟩
  · cases h; exact ⟨_, readV_vf_writeResultFlag x _ _ s⟩
  · cases h; exact ⟨_, readV_vf_writeResultFlag x _ _ s⟩
  · obtain ⟨-, hnext⟩ := guardRange_eq_next.1 (exec_drw x y n s ▸ h)
    cases hnext
    exact ⟨_, readV_writeV_self vf _ _⟩

/-! ### The random source -/

theorem exec_rnd (x : RegNum) (nn : Byte) (s : State) : exec (.rnd x nn) s =
    .next (advance (writeV x (rndValue (Config.randByte s.draws) nn) { s with draws := s.draws + 1 })) := rfl

/-- Settles O28: RND is one draw, one register write and an advance. -/
theorem rndMasksTheDrawnByte : Obligations.RndMasksTheDrawnByte := by
  intro x nn s
  rw [exec_rnd, advance_writeV, rndValue]

/-- Settles O29: the mask clears every bit outside it, and a byte with no such bit is drawn as itself. -/
theorem rndReachesExactlyTheMaskedValues : Obligations.RndReachesExactlyTheMaskedValues := by
  intro nn b
  constructor
  · rintro ⟨r, rfl⟩
    rw [rndValue, BitVec.and_assoc, BitVec.and_not_self]
    exact BitVec.and_zero
  · intro h
    refine ⟨b, ?_⟩
    calc rndValue b nn
      _ = b &&& nn ||| b &&& ~~~nn := by rw [h]; exact BitVec.or_zero.symm
      _ = b &&& (nn ||| ~~~nn) := BitVec.and_or_distrib_left.symm
      _ = b := by rw [BitVec.or_not_self, BitVec.and_allOnes]

/-! ### Keys (R94, R95, R98) -/

/-- Settles O32: the register names key `k`, whose flag decides both skips, or it names no key. -/
theorem keySkipsFollowTheFlag : Obligations.KeySkipsFollowTheFlag := by
  intro x s
  rw [exec_skp, exec_sknp]
  refine ⟨fun k hk => ?_, fun hx => ⟨skipOnKey_of_not_key _ hx, skipOnKey_of_not_key _ hx⟩⟩
  rw [skipOnKey_of_key _ hk, skipOnKey_of_key _ hk]
  exact ⟨congrArg _ (skipIf_eq_of_iff Iff.rfl s), congrArg _ (skipIf_eq_of_iff (by simp) s)⟩

theorem exec_waitk (x : RegNum) (s : State) :
    exec (.waitk x) s = .next { s with blocking := true, key := Vector.replicate 16 false } := rfl

/-- Settles O34: WAITK sets `blocking`, and with it set a Step does nothing. -/
theorem waitkStartsTheKeyWait : Obligations.WaitkStartsTheKeyWait := by
  intro x s
  exact ⟨_, exec_waitk x s, rfl, fun k => by simp, step_of_blocking rfl⟩

/-! ### The index register and the bounds of memory (R101, R102, R125) -/

theorem exec_addx (x : RegNum) (s : State) :
    exec (.addx x) s = .next (advance { s with i := s.i + zextByte (readV x s) }) := rfl

theorem exec_font (x : RegNum) (s : State) :
    exec (.font x) s = .next (advance { s with i := glyphAddress (readV x s) }) := rfl

/-- The 16-bit sum of an address and a byte is their exact sum modulo 65536. -/
theorem add_zextByte_eq_ofNat (a : Word) (b : Byte) :
    a + zextByte b = BitVec.ofNat 16 ((a.toNat + b.toNat) % 65536) :=
  BitVec.eq_of_toNat_eq (by rw [BitVec.toNat_add, zextByte_toNat, BitVec.toNat_ofNat, Nat.mod_mod])

/-- Settles O36: ADDX is one write of the index register and an advance. -/
theorem addxAddsToTheIndex : Obligations.AddxAddsToTheIndex := by
  intro x s
  rw [exec_addx, add_zextByte_eq_ofNat, advance_setIndex, readV]

theorem glyphAddress_eq (b : Byte) : glyphAddress b = BitVec.ofNat 16 (5 * (b.toNat % 16)) := by
  have h : (b &&& 0x0F).toNat = b.toNat % 16 := by
    rw [BitVec.toNat_and]
    exact Nat.and_two_pow_sub_one_eq_mod _ 4
  rw [glyphAddress, h, Config.fontBase, Config.fontStride, Nat.zero_add]

/-- Settles O37: FONT is one write of the index register, with the address of the low nibble's glyph, and an advance. -/
theorem fontAddressesTheGlyph : Obligations.FontAddressesTheGlyph := by
  intro x s
  rw [exec_font, glyphAddress_eq, advance_setIndex, readV]

/-- Settles O42: each of the four checks its whole range first, and here the range is not empty and passes 4096. -/
theorem transfersOutOfRangeFault : Obligations.TransfersOutOfRangeFault := by
  intro x y n s
  rw [exec_drw, exec_bcd, exec_stm, exec_ldm]
  refine ⟨fun hn h => guardRange_of_not_inRange _ (by omega) h,
    fun h => guardRange_of_not_inRange _ (by omega) (by omega), fun h => ?_⟩
  exact ⟨guardRange_of_not_inRange _ (by omega) (by omega), guardRange_of_not_inRange _ (by omega) (by omega)⟩

end Sys2Proof.Proofs
end

section
/-! Proofs about transfers between registers, programs and memory (20_memory.md, 43_timer_memory.md,
44_host_operations.md). -/

namespace Sys2Proof.Proofs

open Sys2Proof.Machine Sys2Proof.Safety

/-! ### Reading what was stored -/

theorem read_storeBytes_inside (m : Memory) (base : Nat) {bytes : List Byte} {k : Nat} (h : k < bytes.length) :
    (m.storeBytes base bytes).read (base + k) = bytes[k] := by
  rw [read_storeBytes, if_neg (by omega), Nat.add_sub_cancel_left, List.getD_eq_getElem _ _ h]

theorem firstRegs_getElem {x r : RegNum} (s : State) (h : r.val < (firstRegs x s).length) :
    (firstRegs x s)[r.val] = readV r s := by
  simp [firstRegs, readV]

/-! ### Transfers whose range lies in memory (R103 to R105) -/

theorem exec_bcd_of_fits (x : RegNum) {s : State} (h : s.i.toNat + 3 ≤ 4096) :
    exec (.bcd x) s = .next (advance (storeAt s.i.toNat (bcdDigits (readV x s)) s)) := by
  rw [exec_bcd, guardRange_of_inRange _ (.inr h)]

theorem exec_stm_of_fits (x : RegNum) {s : State} (h : s.i.toNat + (x.val + 1) ≤ 4096) :
    exec (.stm x) s = .next (advance (storeAt s.i.toNat (firstRegs x s) s)) := by
  rw [exec_stm, guardRange_of_inRange _ (.inr h)]

theorem exec_ldm_of_fits (x : RegNum) {s : State} (h : s.i.toNat + (x.val + 1) ≤ 4096) :
    exec (.ldm x) s = .next (advance (loadRegs x s.i.toNat s)) := by
  rw [exec_ldm, guardRange_of_inRange _ (.inr h)]

theorem byte_ofNat_toNat {n : Nat} (h : n < 256) : (BitVec.ofNat 8 n).toNat = n :=
  by rw [BitVec.toNat_ofNat, Nat.mod_eq_of_lt h]

/-- Settles O38: byte `k` of the range is digit `k`, and each digit is below 256. -/
theorem bcdStoresThreeDigits : Obligations.BcdStoresThreeDigits := by
  intro x s hfits
  have hv := s.v[x].isLt
  have hdigit : ∀ k (hk : k < 3), (s.mem.storeBytes s.i.toNat (bcdDigits s.v[x])).read (s.i.toNat + k) =
      (bcdDigits s.v[x])[k] := fun k hk => read_storeBytes_inside s.mem s.i.toNat hk
  refine ⟨_, exec_bcd_of_fits x hfits, rfl, ?_, ?_, ?_, fun a ha => read_storeBytes_outside _ _ a _ ha⟩
  · exact (congrArg BitVec.toNat (hdigit 0 (by decide))).trans (byte_ofNat_toNat (by omega))
  · exact (congrArg BitVec.toNat (hdigit 1 (by decide))).trans (byte_ofNat_toNat (by omega))
  · exact (congrArg BitVec.toNat (hdigit 2 (by decide))).trans (byte_ofNat_toNat (by omega))

/-- Settles O39: byte `r` of the range is register `r`. -/
theorem stmStoresTheFirstRegisters : Obligations.StmStoresTheFirstRegisters := by
  intro x s hfits
  refine ⟨_, exec_stm_of_fits x hfits, rfl, fun r hr => ?_, fun a ha => ?_⟩
  · have hlt : r.val < (firstRegs x s).length := by
      rw [firstRegs_length]
      exact Nat.lt_succ_of_le hr
    rw [advance_mem, storeAt_mem, read_storeBytes_inside _ _ hlt, firstRegs_getElem, readV]
  · exact read_storeBytes_outside _ _ a _ (by rwa [firstRegs_length])

/-- The fields of the state after registers are loaded and `pc` advances: no other field moves. -/
theorem advance_loadRegs (x : RegNum) (base : Nat) (s : State) :
    advance (loadRegs x base s) = { s with v := (advance (loadRegs x base s)).v, pc := s.pc + 2 } := by
  rw [advance, loadRegs]

/-- Settles O40. -/
theorem ldmLoadsTheFirstRegisters : Obligations.LdmLoadsTheFirstRegisters := by
  intro x s hfits
  refine ⟨_, exec_ldm_of_fits x hfits, advance_loadRegs x s.i.toNat s, fun r => ?_⟩
  change readV r (advance (loadRegs x s.i.toNat s)) = _
  rw [readV_advance, readV_loadRegs, readV]
  rfl

/-- Settles O41: LDM reads the bytes that STM stored, from the same base; the range lies in memory since STM went
on. -/
theorem storeThenLoadReproducesTheRegisters : Obligations.StoreThenLoadReproducesTheRegisters := by
  intro x s t u hstm hmem hi
  obtain ⟨hrange, -⟩ := guardRange_eq_next.1 (exec_stm x s ▸ hstm)
  have hfits : s.i.toNat + x.val + 1 ≤ 4096 := by omega
  obtain ⟨t', hstm', hframe, hstored, -⟩ := stmStoresTheFirstRegisters x s hfits
  obtain rfl : t' = t := by simpa [hstm] using hstm'.symm
  have hit : u.i = s.i := by rw [hi, hframe]
  obtain ⟨w, hldm, -, hloaded⟩ := ldmLoadsTheFirstRegisters x u (by rwa [hit])
  refine ⟨w, hldm, fun r hr => ?_⟩
  rw [hloaded r, if_pos hr, hmem, hit, hstored r hr]

/-- Settles O43: all three stores are `storeBytes`, and a fetch reads both bytes through it. -/
theorem storeIsSeenByTheNextFetch : Obligations.StoreIsSeenByTheNextFetch := by
  intro s pc hpc
  refine ⟨fun x t h => ?_, fun x t digits h hdigits => ?_, fun bytes t h => ?_⟩
  · obtain ⟨-, h⟩ := guardRange_eq_next.1 (exec_stm x s ▸ h)
    cases h
    exact fetchWord_after_store hpc rfl
  · obtain ⟨-, h⟩ := guardRange_eq_next.1 (exec_bcd x s ▸ h)
    cases h
    subst hdigits
    exact fetchWord_after_store hpc rfl
  · cases opEffect_of_perform h
    exact fetchWord_after_store hpc rfl

/-- Settles O45: Load program is one store at 0x200, or the fault. -/
theorem loadCopiesTheProgramAndNothingElse : Obligations.LoadCopiesTheProgramAndNothingElse := by
  intro bytes s
  rw [perform_load]
  refine ⟨loadProgram_of_long s, fun hfits =>
    ⟨_, loadProgram_of_fits s hfits, rfl, fun k hk => ?_, fun a ha => ?_⟩⟩
  · exact read_storeBytes_inside s.mem 0x200 hk
  · exact read_storeBytes_outside s.mem 0x200 a bytes ha

/-! ### The reset memory -/

theorem resetByte_above_font {a : Nat} (h : a ≥ 0x050) : resetByte a = 0 := by
  have hlen : fontBytes.length = 80 := by decide
  rw [resetByte, List.getD_eq_getElem?_getD, List.getElem?_eq_none (by omega), Option.getD_none]

/-- Settles O44: the reset memory lists no cell, so each byte reads as its reset byte. -/
theorem constructGivesTheResetValues : Obligations.ConstructGivesTheResetValues := by
  intro s
  refine ⟨_, perform_construct s, rfl, rfl, ?_, rfl, rfl, ?_, rfl, rfl, ?_, ?_, rfl, ?_, ?_⟩
  · exact fun r => by simp [construct, State.reset]
  · exact fun k => by simp [construct, State.reset]
  · exact pixel_clearDisplay
  · exact fun k => by simp [construct, State.reset]
  · show (List.range 80).map resetByte = _
    decide
  · exact fun a ha => resetByte_above_font ha

end Sys2Proof.Proofs
end

section
/-! Proofs about drawing (42_display_keypad.md R92, R93). -/

namespace Sys2Proof.Proofs

open Sys2Proof.Machine Sys2Proof.Safety

/-! ### The pixels of a sprite -/

/-- The pixels that DRW flips (R93). -/
def drawCovers (x y : RegNum) (n : Nat) (s : State) : Fin 64 → Fin 32 → Bool :=
  spriteCovers s.mem s.i.toNat n (readV x s).toNat (readV y s).toNat

/-- The drawing and the claims say alike which pixels the sprite puts a 1 bit on. -/
theorem drawCovers_iff {x y : RegNum} {n : Nat} {s : State} {px : Fin 64} {py : Fin 32} :
    drawCovers x y n s px py = true ↔
      SpriteCovers s.v[x].toNat s.v[y].toNat n (fun r => s.mem.read (s.i.toNat + r)) px py := by
  have hwraps : ∀ x0 y0, spriteWraps x0 y0 = true ↔ x0 ≥ 64 ∨ y0 ≥ 32 := by simp [spriteWraps]
  rw [drawCovers, spriteCovers_iff, SpriteCovers]
  simp only [place_eq_some, hwraps, spriteBit, readV]

/-! ### What DRW leaves -/

section

variable (x y : RegNum) (n : Nat) (s : State)

theorem readV_afterDrw (r : RegNum) :
    readV r (afterDrw x y n s) = if r = vf then flagByte (drawn x y n s).collision else readV r s := by
  rw [afterDrw, readV_advance, readV_writeV]
  rfl

/-- DRW writes the display and VF, and advances (R92). -/
theorem afterDrw_frame : afterDrw x y n s =
    { s with display := (afterDrw x y n s).display, v := s.v.set vf (afterDrw x y n s).v[vf], pc := s.pc + 2 } := by
  simp [afterDrw, advance, writeV]

variable {n} (hn : n ≤ 15)
include hn

theorem pixel_afterDrw (px : Fin 64) (py : Fin 32) :
    pixel (afterDrw x y n s).display px py = xor (pixel s.display px py) (drawCovers x y n s px py) :=
  (flips_drawSprite s.mem s.i.toNat n _ _ (by omega)).pixel_eq ⟨s.display, false⟩ px py

theorem collision_drawn : (drawn x y n s).collision = true ↔
    ∃ px py, drawCovers x y n s px py = true ∧ pixel s.display px py = true := by
  rw [drawn, drawSprite, (flips_drawSprite s.mem s.i.toNat n _ _ (by omega)).collision_iff ⟨s.display, false⟩]
  simp only [Bool.false_eq_true, false_or, drawCovers]

theorem flag_afterDrw_eq_one : (afterDrw x y n s).v[vf] = 1 ↔
    ∃ px py, drawCovers x y n s px py = true ∧ pixel s.display px py = true := by
  rw [← collision_drawn x y s hn]
  change readV vf (afterDrw x y n s) = 1 ↔ _
  rw [readV_afterDrw, if_pos rfl]
  cases (drawn x y n s).collision <;> decide

end

/-- Settles O30: the drawing flips exactly the covered pixels, and its collision is the flag. -/
theorem drawXorsTheSpriteAndReportsCollision : Obligations.DrawXorsTheSpriteAndReportsCollision := by
  intro x y n s hn hrange
  have hexec : exec (.drw x y n) s = .next (afterDrw x y n s) := by rw [exec_drw, guardRange_of_inRange _ hrange]
  refine ⟨afterDrw x y n s, hexec, afterDrw_frame x y n s, fun px py => ?_, ?_, ?_⟩
  · rw [pixel_afterDrw x y s hn, ← drawCovers_iff]
    cases pixel s.display px py <;> simp
  · simp only [flag_afterDrw_eq_one x y s hn, drawCovers_iff, and_comm]
  · exact flagWritersLeaveZeroOrOne x y n _ s _ (by simp) hexec

/-- A draw changes neither the sprite nor anchor registers other than VF, so a second one covers the same pixels. -/
theorem drawCovers_afterDrw {x y : RegNum} (n : Nat) (s : State) (hx : x ≠ vf) (hy : y ≠ vf) :
    drawCovers x y n (afterDrw x y n s) = drawCovers x y n s := by
  rw [drawCovers, readV_afterDrw, readV_afterDrw, if_neg hx, if_neg hy]
  rfl

/-- Settles O31: the same pixels flipped twice; and where the first draw met no 1 pixel, every covered pixel is 1 after
it. -/
theorem drawingTwiceRestoresTheDisplay : Obligations.DrawingTwiceRestoresTheDisplay := by
  intro x y n s t hn hx hy h
  obtain ⟨hrange, h⟩ := guardRange_eq_next.1 (exec_drw x y n s ▸ h)
  obtain rfl : afterDrw x y n s = t := by simpa using h
  have hsame := drawCovers_afterDrw n s hx hy
  refine ⟨afterDrw x y n (afterDrw x y n s), ?_, display_ext fun px py => ?_, fun hflag => ?_⟩
  · rw [exec_drw]
    exact guardRange_of_inRange _ hrange
  · rw [pixel_afterDrw x y _ hn, hsame, pixel_afterDrw x y s hn, Bool.xor_assoc, Bool.xor_self, Bool.xor_false]
  · have hclear : ∀ px py, drawCovers x y n s px py = true → pixel s.display px py = false := by
      intro px py hc
      by_contra hp
      have hone := (flag_afterDrw_eq_one x y s hn).2 ⟨px, py, hc, by simpa using hp⟩
      simp [hflag] at hone
    rw [flag_afterDrw_eq_one x y _ hn, hsame]
    refine exists_congr fun px => exists_congr fun py => ?_
    rw [pixel_afterDrw x y s hn, ← drawCovers_iff, and_iff_left_iff_imp]
    intro hc
    rw [hclear px py hc, hc, Bool.false_xor]

end Sys2Proof.Proofs
end
